-- ==== Sys2Proof/Word.lean ====
section
/-! DEFINITION. The word types of the hardware (spec 00_scope R6, R7, R11): widths only, no behaviour. -/

namespace Sys2Proof

/-- One byte of memory or of an instruction (20_memory R40). -/
abbrev Byte := BitVec 8

/-- A doubleword: one single-precision source element (00_scope R11). -/
abbrev Dword := BitVec 32

/-- A quadword: a general register, an address, one destination element (00_scope R11). -/
abbrev Qword := BitVec 64

/-- A vector register, MAXVL = 512 bits (10_state R21). -/
abbrev Vec := BitVec 512

end Sys2Proof
end

