-- ==== Sys2Proof/Config.lean ====
section
/-! DEFINITION. What an implementation fixes (spec 00_scope R5) and the free values: constants without a body, so that no
proof can know what they are. -/

namespace Sys2Proof.Config

/-- The indefinite integer value of an invalid conversion, a named configuration field (40_vcvttps2qq R93, 90_conflicts C2,
decision D4). -/
def intIndefinite64 : Qword := 0x8000000000000000#64

/-- How many low bits of a linear address are significant: an address is canonical when bits 63 down to this number minus one
are all equal. DEDUCED from vector T20 of 95_test_vectors (log 8). Unsafe where the chip has wider linear addresses. -/
def linearBits : Nat := 48

/-- The processor signature that RDX holds after reset (70_reset R150, which gives neither value nor width): free. PRESUMED (log 1):
it has 32 bits, and RDX[63:32] is 0. Unsafe. -/
opaque processorSignature : Dword

/-- The two bits that may be added to MXCSR.IE (bit 0) and MXCSR.PE (bit 1) at an unmasked SIMD floating-point fault
(40_vcvttps2qq R98: any value not below the old one): free, fresh for each draw number (log 4). -/
opaque freeFlags : Nat → BitVec 2

/-- The error code of a #PF on an address that the launch memory does not list (20_memory R47: its bits are out of scope): free
(log 5). Its width, 32 bits, is PRESUMED (log 5): the spec gives none. -/
opaque freePageCode : Nat → BitVec 32

/-- Which of the accessed bytes a #PF reports as its faulting address, and which refused byte's code it carries (95_test_vectors
T19 fixes only the range): free (log 5). -/
opaque freePageIndex : Nat → Nat

end Sys2Proof.Config
end

