-- ==== Sys2Proof/Machine/Convert.lean ====
section
/-! DEFINITION. Convert_Single_Precision_To_QuadInteger_Truncate: one element (spec 40_vcvttps2qq R91 to R94). -/

namespace Sys2Proof.Machine

/-- The result of one lane: the 64 bits, and whether invalid and precision are signalled. -/
structure Cvt where
  r : Qword
  ie : Bool
  pe : Bool
  deriving DecidableEq, Repr

/-- The sign of a binary32 pattern (40_vcvttps2qq R92). -/
def f32Sign (x : Dword) : Bool := x.getLsbD 31

/-- The biased exponent (R92). -/
def f32Exp (x : Dword) : Nat := (x.extractLsb' 23 8).toNat

/-- The fraction (R92). -/
def f32Frac (x : Dword) : Nat := (x.extractLsb' 0 23).toNat

/-- The invalid response: the indefinite integer value (R93). -/
def cvtInvalid : Cvt := { r := Config.intIndefinite64, ie := true, pe := false }

/-- A magnitude with a sign as a 64-bit two's-complement pattern (R91, last step). -/
def signedResult (neg : Bool) (mag : Nat) : Qword := if neg then -BitVec.ofNat 64 mag else BitVec.ofNat 64 mag

/-- A normal number with biased exponent 1..254: `m = 2^23 + f`, `E = e - 127` (R91). -/
def cvtNormal (s : Bool) (e f : Nat) : Cvt :=
  if 190 ≤ e then
    if s && e == 190 && f == 0 then { r := 0x8000000000000000#64, ie := false, pe := false } else cvtInvalid
  else if 150 ≤ e then { r := signedResult s ((2 ^ 23 + f) <<< (e - 150)), ie := false, pe := false }
  else if 127 ≤ e then
    { r := signedResult s ((2 ^ 23 + f) >>> (150 - e)), ie := false, pe := (2 ^ 23 + f) % 2 ^ (150 - e) != 0 }
  else { r := 0, ie := false, pe := true }

/-- `cvtt(x, daz)` (R91). -/
def cvtt (x : Dword) (daz : Bool) : Cvt :=
  if f32Exp x = 255 then cvtInvalid
  else if f32Exp x = 0 then { r := 0, ie := false, pe := f32Frac x != 0 && !daz }
  else cvtNormal (f32Sign x) (f32Exp x) (f32Frac x)

end Sys2Proof.Machine
end

