-- ==== Sys2Proof/Syntax.lean ====
section
/-! DEFINITION. The instruction as syntax: one constructor for each row of spec/opcode_table.json (30_encoding R79), and the
names of the encodings that the decoder rejects (30_encoding R74). -/

namespace Sys2Proof

/-- Vector length `VL` of the lane loop (30_encoding R68). -/
inductive VLen where
  | v128 | v256 | v512
  deriving DecidableEq, Repr

/-- The number of a vector register, 0..31 (10_state R21). -/
abbrev VReg := Fin 32

/-- The number of an opmask register, 0..7 (10_state R23). -/
abbrev KReg := Fin 8

/-- The number of a general register, 0..15: RAX RCX RDX RBX RSP RBP RSI RDI R8..R15 (10_state R25). -/
abbrev Gpr := Fin 16

/-- A segment-override prefix (30_encoding R72). -/
inductive Seg where
  | es | cs | ss | ds | fs | gs
  deriving DecidableEq, Repr

/-- The legacy prefixes that may stand before the byte 0x62: at most one segment override, and the address-size prefix 0x67
(30_encoding R72). Their order is not kept. -/
structure Pfx where
  seg : Option Seg := none
  a32 : Bool := false
  deriving DecidableEq, Repr

/-- The writemask fields: `aaa` (0 = no writemask) and `z` (false merging, true zeroing) (30_encoding R70). -/
structure Masking where
  aaa : KReg
  z : Bool
  deriving DecidableEq, Repr

/-- A displacement: none, 8 bits (scaled by N, 20_memory R44) or 32 bits (never scaled) (30_encoding R67). -/
inductive Disp where
  | none
  | d8 (v : BitVec 8)
  | d32 (v : BitVec 32)
  deriving DecidableEq, Repr

/-- A SIB index: the register and the shift 0..3 (30_encoding R67). -/
structure Index where
  reg : Gpr
  scale : Fin 4
  deriving DecidableEq, Repr

/-- A memory operand as ModRM, SIB and displacement spell it (20_memory R43). -/
inductive MemOperand where
  /-- No SIB byte, a base register. -/
  | base (b : Gpr) (d : Disp)
  /-- mod = 00, rm = 101: RIP-relative. -/
  | rip (d : BitVec 32)
  /-- A SIB byte with a base register; `none` is "no index". -/
  | sib (b : Gpr) (i : Option Index) (d : Disp)
  /-- A SIB byte with mod = 00 and base = 101: no base, a 32-bit displacement. -/
  | sibNoBase (i : Option Index) (d : BitVec 32)
  deriving DecidableEq, Repr

/-- VCVTTPS2QQ, one constructor for each form of 30_encoding R79. -/
inductive Instr where
  | reg128 (p : Pfx) (m : Masking) (dst src : VReg)
  | mem128 (p : Pfx) (m : Masking) (dst : VReg) (src : MemOperand)
  | bcst128 (p : Pfx) (m : Masking) (dst : VReg) (src : MemOperand)
  | reg256 (p : Pfx) (m : Masking) (dst src : VReg)
  | mem256 (p : Pfx) (m : Masking) (dst : VReg) (src : MemOperand)
  | bcst256 (p : Pfx) (m : Masking) (dst : VReg) (src : MemOperand)
  | reg512 (p : Pfx) (m : Masking) (dst src : VReg)
  | mem512 (p : Pfx) (m : Masking) (dst : VReg) (src : MemOperand)
  | bcst512 (p : Pfx) (m : Masking) (dst : VReg) (src : MemOperand)
  | sae512 (p : Pfx) (m : Masking) (dst src : VReg)
  deriving DecidableEq, Repr

/-- Why the decoder gives a byte sequence no meaning: the rows of 30_encoding R74, the prefixes of R72, and an instruction cut
short by the end of the bytes. -/
inductive Reject where
  /-- The bytes end before the instruction does. -/
  | short
  /-- The first byte begins no VCVTTPS2QQ (R60). -/
  | notEvex
  /-- A LOCK prefix 0xF0 (R72). -/
  | lockPfx
  /-- A prefix 0x66 (R72). -/
  | operandSizePfx
  /-- A prefix 0xF2 (R72). -/
  | repnePfx
  /-- A prefix 0xF3 (R72). -/
  | repPfx
  /-- A REX prefix 0x40..0x4F (R72). -/
  | rexPfx
  /-- Two segment overrides (R71, U17). -/
  | repeatedSegPfx
  /-- Two 0x67 prefixes (R71, U17). -/
  | repeatedAddrPfx
  /-- P0 bit 3 set. -/
  | p0Reserved
  /-- Another opcode map, mmm other than 001. -/
  | otherMap
  /-- P1 bit 2 clear. -/
  | p1Fixed
  /-- W = 1: VCVTTPD2QQ, another instruction. -/
  | w1
  /-- pp other than 01. -/
  | otherPp
  /-- An opcode byte other than 0x7A. -/
  | otherOpcode
  /-- P2 bit 3 clear (V' logical 1). -/
  | vPrime
  /-- L'L = 11 where it selects a length. -/
  | reservedLength
  /-- z = 1 with aaa = 000. -/
  | zeroingWithoutMask
  deriving DecidableEq, Repr

end Sys2Proof
end

