-- ==== Sys2Proof/Machine/State.lean ====
section
/-! DEFINITION. The state of the machine (spec 10_state R20), the reasons a step can stop, and the state after reset
(70_reset R150). -/

namespace Sys2Proof.Machine

/-- The processor modes (30_encoding R75, 70_reset R150); only 64-bit mode is modelled (00_scope R4 b, R5). -/
inductive Mode where
  | real | virtual8086 | protectedMode | compatibility | long64
  deriving DecidableEq, Repr

/-- What an access is for: the `access` argument of `translate` (decision D20). -/
inductive Access where
  | fetch | read
  deriving DecidableEq, Repr

/-- Why `translate` refuses a byte (20_memory R47): a non-canonical address (#GP or #SS by the segment), or a page-level refusal
with its error code (#PF). The spec gives the code no width: 32 bits PRESUMED (log 5). -/
inductive Deny where
  | nonCanonical
  | page (code : Dword)
  deriving DecidableEq, Repr

/-- One answer of `translate` (decision D20: `ok(phys)` or `fault`). -/
inductive XlatResult where
  | ok (phys : Qword)
  | deny (d : Deny)
  deriving DecidableEq, Repr

/-- One address at which `translate` answers otherwise than by default (log 7). -/
structure XlatEntry where
  access : Access
  addr : Qword
  result : XlatResult
  deriving DecidableEq, Repr

/-- Memory: the bytes that the launch memory lists, in address order (20_memory R40, R56). An unlisted address holds no byte. -/
abbrev Memory := List Host.Cell

/-- The open parameters that are single bits (00_scope R5). -/
structure Params where
  /-- FAULT_SUPPRESSION (20_memory R49): bytes of masked-off lanes are not accessed. -/
  faultSuppression : Bool
  /-- The model's own (log 9): the exceptions that the spec reconstructs from general knowledge (60_exceptions R121 b, R122, R126
  for the fetch, R127) are raised; false: the model refuses there, as R121 and decisions D22, D24 say. -/
  reconstructed : Bool
  /-- The model's own (log 10): 16- and 32-byte operands are alignment-checked too (R127 leaves it uncertain). -/
  acWide : Bool
  /-- The model's own (log 25): a segment override other than FS and GS is ignored whole (30_encoding R81, decision D25), as after
  reset; false: it also says whether the operand is in the stack segment, as 60_exceptions R126 has it. -/
  segOverrideIgnored : Bool
  deriving DecidableEq, Repr

/-- The state of the machine: 10_state R20, then the parameters of 00_scope R5, then the model's draw counter. -/
structure State where
  /-- zmm0..zmm31 (R21). -/
  zmm : Vector Vec 32
  /-- k0..k7 (R23). -/
  k : Vector Qword 8
  /-- MXCSR (R24). -/
  mxcsr : Dword
  /-- RAX..R15 (R25). -/
  gpr : Vector Qword 16
  /-- RIP (R26). -/
  pc : Qword
  /-- CS base: 0 in effect in 64-bit mode (R27); reset gives it a value (R20). The spec gives no width: 64 bits PRESUMED (log 16). -/
  csBase : Qword
  /-- FS_BASE (R27). -/
  fsBase : Qword
  /-- GS_BASE (R27). -/
  gsBase : Qword
  /-- CR0 (R29). -/
  cr0 : Qword
  /-- CR4 (R29). -/
  cr4 : Qword
  /-- XCR0 (R29). -/
  xcr0 : Qword
  /-- RFLAGS (R28). -/
  rflags : Qword
  /-- CPL (R29). -/
  cpl : BitVec 2
  /-- MODE (00_scope R5). -/
  mode : Mode
  /-- Memory (R40). -/
  mem : Memory
  /-- CPUID.(EAX=07H,ECX=0):EBX (R29): HAS_AVX512F, HAS_AVX512DQ, HAS_AVX512VL. -/
  cpuid7Ebx : Dword
  /-- Where `translate` differs from its default (R47). -/
  xlat : List XlatEntry
  /-- The one-bit parameters. -/
  params : Params
  /-- The model's own (log 4): the number of the next draw of a free value. -/
  draws : Nat
  deriving DecidableEq, Repr

/-- Why a #UD was raised. The hardware records no such cause; the name is for the reader. -/
inductive UdCause where
  /-- EVEX.vvvv other than 1111b (30_encoding R73). -/
  | vvvv
  /-- AVX512DQ or AVX512VL missing (60_exceptions R121 b, decision D22). -/
  | cpuid
  /-- AVX512F missing, CR4.OSXSAVE = 0 or XCR0 incomplete (R121 b), where `params.reconstructed` is true. -/
  | enable
  /-- An unmasked SIMD floating-point exception with CR4.OSXMMEXCPT = 0 (R128). -/
  | simdFp
  deriving DecidableEq, Repr

/-- The exceptions (60_exceptions R120). Each ends the run in a terminal fault outcome that carries the state (R130): `after` is the
state before the instruction but for the draws. The end of the run is safe: nothing about a handler can be proved. -/
inductive Fault where
  /-- #UD, vector 6: raised at decode, by the checks of R121, or in place of #XM. Safe. -/
  | ud (cause : UdCause) (after : State)
  /-- #NM, vector 7: CR0.TS = 1 (R122), only where `params.reconstructed`. Safe. -/
  | nm (after : State)
  /-- #SS(0), vector 12: a non-canonical operand address in the stack segment (R126). Safe. -/
  | ss (after : State)
  /-- #GP(0), vector 13: a non-canonical operand address in another segment, or instruction address (R126). Safe. -/
  | gp (after : State)
  /-- #PF(code), vector 14: a byte that paging refuses or the launch memory does not list (R126, U5); `addr` is the faulting
  linear address that R120 says CR2 records; a code of 32 bits is PRESUMED (log 5). Safe. -/
  | pf (addr : Qword) (code : Dword) (after : State)
  /-- #AC(0), vector 17: a misaligned operand (R127), only where `params.reconstructed`. Safe. -/
  | ac (after : State)
  /-- #XM, vector 19: an unmasked Invalid or Precision (R128). Safe; `after` holds the drawn MXCSR flags. -/
  | xm (after : State)
  deriving DecidableEq, Repr

/-- A premise of 70_reset R151 that the model refuses without (60_exceptions R121, decision D22). -/
inductive Premise where
  | avx512f | osxsave | xcr0 | taskSwitched
  deriving DecidableEq, Repr

/-- Where the model gives no meaning. All are safe. -/
inductive Refusal where
  /-- An instruction without a meaning: raised by no arm of this model. Safe. -/
  | notModelled (mnemonic : String)
  /-- A mode other than 64-bit mode (30_encoding R75, decision D1): raised by the fetch and by every meaning. Safe. -/
  | mode (m : Mode)
  /-- Bytes that R74 tells a model to refuse: raised by the fetch. Safe. -/
  | encoding (r : Reject)
  /-- Instruction bytes that cannot be read, where not `params.reconstructed` (R126: fetch faults are not modelled): raised by the
  fetch. Safe. -/
  | fetchUnreadable
  /-- pc + ilen reaches 2^64 (10_state R26: not defined): raised by the fetch. Safe. -/
  | pcWraps
  /-- A launch premise fails, where not `params.reconstructed` (60_exceptions R121, D22): raised by every meaning. Safe. -/
  | launchPremise (p : Premise)
  /-- A misaligned operand under alignment checking, where not `params.reconstructed` (R127, U11): raised by the memory forms.
  Safe. -/
  | alignmentChecked
  deriving DecidableEq, Repr

/-- The state after power-up or RESET (70_reset R150; log 1, log 2). RDX is the processor signature, PRESUMED to be 32 bits wide and
zero-extended (log 1). -/
def State.reset : State where
  zmm := Vector.replicate 32 0
  k := Vector.replicate 8 0
  mxcsr := 0x00001F80
  gpr := (Vector.replicate 16 0).set 2 (Config.processorSignature.setWidth 64)
  pc := 0xFFF0
  csBase := 0xFFFF0000
  fsBase := 0
  gsBase := 0
  cr0 := 0x60000010
  cr4 := 0
  xcr0 := 1
  rflags := 2
  cpl := 0
  mode := .real
  mem := []
  cpuid7Ebx := 0x80030000
  xlat := []
  params := { faultSuppression := false, reconstructed := false, acWide := false, segOverrideIgnored := true }
  draws := 0

end Sys2Proof.Machine
end

