-- ==== Sys2Proof/Machine/Flags.lean ====
section
/-! DEFINITION. The bits of MXCSR (spec 10_state R24), of the enable registers (R28, R29), and what the instruction does to the
flags (40_vcvttps2qq R97). -/

namespace Sys2Proof.Machine

/-! ## MXCSR (10_state R24) -/

/-- Invalid-operation flag. -/
def mxIE (x : Dword) : Bool := x.getLsbD 0

/-- Precision flag. -/
def mxPE (x : Dword) : Bool := x.getLsbD 5

/-- Denormals-are-zeros. -/
def mxDAZ (x : Dword) : Bool := x.getLsbD 6

/-- Invalid-operation mask. -/
def mxIM (x : Dword) : Bool := x.getLsbD 7

/-- Precision mask. -/
def mxPM (x : Dword) : Bool := x.getLsbD 12

/-- IE and PE as a word to be OR-ed in. -/
def flagWord (ie pe : Bool) : Dword := (if ie then 0x01#32 else 0#32) ||| (if pe then 0x20#32 else 0#32)

/-- `mxcsr.IE |= ie`, `mxcsr.PE |= pe`: the flags are sticky and no other bit changes (40_vcvttps2qq R97). -/
def orFlags (x : Dword) (ie pe : Bool) : Dword := x ||| flagWord ie pe

/-- An exception that is signalled and not masked (40_vcvttps2qq R98). -/
def unmasked (x : Dword) (ie pe : Bool) : Bool := (ie && !mxIM x) || (pe && !mxPM x)

/-! ## Enables (10_state R28, R29) -/

/-- HAS_AVX512F. -/
def hasAvx512f (s : State) : Bool := s.cpuid7Ebx.getLsbD 16

/-- HAS_AVX512DQ. -/
def hasAvx512dq (s : State) : Bool := s.cpuid7Ebx.getLsbD 17

/-- HAS_AVX512VL. -/
def hasAvx512vl (s : State) : Bool := s.cpuid7Ebx.getLsbD 31

/-- CR4.OSXSAVE. -/
def osxsave (s : State) : Bool := s.cr4.getLsbD 18

/-- CR4.OSXMMEXCPT. -/
def osxmmexcpt (s : State) : Bool := s.cr4.getLsbD 10

/-- XCR0[2:1] = 11b and XCR0[7:5] = 111b. -/
def xcr0Enabled (s : State) : Bool := s.xcr0.extractLsb' 1 2 == 3#2 && s.xcr0.extractLsb' 5 3 == 7#3

/-- CR0.TS. -/
def taskSwitched (s : State) : Bool := s.cr0.getLsbD 3

/-- Alignment checking is on: CR0.AM = 1, RFLAGS.AC = 1 and CPL = 3 (60_exceptions R127). -/
def alignmentChecking (s : State) : Bool := s.cr0.getLsbD 18 && s.rflags.getLsbD 18 && s.cpl == 3#2

/-- Which forms need AVX512VL: VL = 128 and 256 (60_exceptions R121). -/
def needsVl : VLen → Bool
  | .v128 => true
  | .v256 => true
  | .v512 => false

end Sys2Proof.Machine
end

