-- ==== Sys2Proof/Machine/Ops.lean ====
section
/-! DEFINITION. The named operations: registers, memory, `translate` (spec 20_memory), raising an exception (60_exceptions R130),
reset, INIT and launch (70_reset). -/

namespace Sys2Proof.Machine

/-! ## Registers -/

/-- `zmm[r]` (00_scope R7). -/
def readVec (s : State) (r : VReg) : Vec := s.zmm[r]

/-- `zmm[r] <- v`, all 512 bits (00_scope R7). -/
def writeVec (s : State) (r : VReg) (v : Vec) : State := { s with zmm := s.zmm.set r v }

/-- `k[r]` (00_scope R7). -/
def readMask (s : State) (r : KReg) : Qword := s.k[r]

/-- `x[r]` (00_scope R7). -/
def readGpr (s : State) (r : Gpr) : Qword := s.gpr[r]

/-- `pc <- pc + ilen` (40_vcvttps2qq R102). -/
def advancePc (s : State) (ilen : Nat) : State := { s with pc := s.pc + BitVec.ofNat 64 ilen }

/-- Sets MXCSR. -/
def writeMxcsr (s : State) (x : Dword) : State := { s with mxcsr := x }

/-- Takes one draw: the next free value is another one (log 4). -/
def drawn (s : State) : State := { s with draws := s.draws + 1 }

/-! ## Memory (20_memory R40, R41) -/

/-- The byte that a physical address holds; an unlisted address holds none (U5). -/
def Memory.read : Memory → Nat → Option Byte
  | [], _ => none
  | (k, b) :: rest, a => if k = a then some b else Memory.read rest a

/-- Stores one byte; the list stays in address order. -/
def Memory.write : Memory → Nat → Byte → Memory
  | [], a, b => [(a, b)]
  | (k, c) :: rest, a, b =>
    if a < k then (a, b) :: (k, c) :: rest
    else if a = k then (a, b) :: rest
    else (k, c) :: Memory.write rest a b

/-- The canonical form: addresses strictly rising and below 2^64. (No entry can equal what an unlisted address reads as: that
is no byte at all.) -/
def Memory.wf : Memory → Bool
  | [] => true
  | (k, _) :: rest => decide (k < 2 ^ 64) && rest.all (fun c => decide (k < c.1)) && Memory.wf rest

/-- Stores bytes at rising addresses, modulo 2^64. -/
def Memory.writeBytes (m : Memory) (a : Qword) : List Byte → Memory
  | [] => m
  | b :: bs => Memory.writeBytes (Memory.write m a.toNat b) (a + 1) bs

/-- `MemWrite` of 00_scope R7, defined for completeness: no instruction calls it (20_memory R52). The spec says no more of it.
DESIGN CHOICE (log 23): it stores at the linear address taken as a physical one, past `translate`, and never faults. Unsafe. -/
def memWrite (s : State) (a : Qword) (bs : List Byte) : State := { s with mem := s.mem.writeBytes a bs }

/-! ## `translate` (20_memory R47, decision D20) -/

/-- Canonical: the bits from the top significant one upwards are all equal (log 8). -/
def isCanonical (a : Qword) : Bool := (a.setWidth Config.linearBits).signExtend 64 == a

/-- The answer that the parameter gives for an address, if it differs from the default. -/
def xlatLookup (s : State) (acc : Access) (a : Qword) : Option XlatResult :=
  (s.xlat.find? fun e => e.access == acc && e.addr == a).map XlatEntry.result

/-- The byte at a physical address; where the launch memory lists none, a page-level refusal with a free code (U5, log 5). DESIGN
CHOICE (log 26): so too for a physical address that an override of `translate` answers, of which U5 does not speak. -/
def physByte (s : State) (p : Qword) : Except Deny Byte :=
  match s.mem.read p.toNat with
  | some b => .ok b
  | none => .error (.page (Config.freePageCode s.draws))

/-- One byte through `translate`. By default the identity on canonical addresses that the launch memory lists (D20). -/
def readByte (s : State) (acc : Access) (a : Qword) : Except Deny Byte :=
  match xlatLookup s acc a with
  | some (.ok p) => physByte s p
  | some (.deny d) => .error d
  | none => if isCanonical a then physByte s a else .error .nonCanonical

/-- The byte at an address as data, if it can be read: what a claim about memory looks at. -/
def byteAt (s : State) (a : Qword) : Option Byte :=
  match readByte s .read a with
  | .ok b => some b
  | .error _ => none

/-! ## Exceptions (60_exceptions R120, R130) -/

/-- `raise`: the run ends in a terminal fault outcome that records the exception and the state. No handler runs, nothing is pushed,
no mode changes (60_exceptions R130). There is no return from an exception (R131). -/
def raise (e : State → Fault) (s : State) : Host.Outcome State Fault Refusal := .fault (e s)

/-- The vector number (R120). -/
def vectorOf : Fault → Nat
  | .ud _ _ => 6
  | .nm _ => 7
  | .ss _ => 12
  | .gp _ => 13
  | .pf _ _ _ => 14
  | .ac _ => 17
  | .xm _ => 19

/-- The error code (R120): none for #UD, #NM, #XM; 0 for #SS, #GP, #AC; the page-fault code for #PF. R120
gives no width: 32 bits PRESUMED (log 5). -/
def errorCodeOf : Fault → Option Dword
  | .ud _ _ => none
  | .nm _ => none
  | .ss _ => some 0
  | .gp _ => some 0
  | .pf _ code _ => some code
  | .ac _ => some 0
  | .xm _ => none

/-- The state that the fault outcome records (R130). -/
def stateAfter : Fault → State
  | .ud _ s => s
  | .nm s => s
  | .ss s => s
  | .gp s => s
  | .pf _ _ s => s
  | .ac s => s
  | .xm s => s

/-- #PF with a faulting address among the accessed ones and a code among the refused bytes' codes (95_test_vectors T19, log 5). -/
def raisePage (s : State) (addrs : List Qword) (codes : List Dword) : Host.Outcome State Fault Refusal :=
  raise (.pf (addrs.getD (Config.freePageIndex s.draws % addrs.length) 0)
    (codes.getD (Config.freePageIndex s.draws % codes.length) 0)) (drawn s)

/-- MXCSR at an unmasked SIMD floating-point fault: IE and PE are any value not below the old one (40_vcvttps2qq R98). -/
def drawnFlags (s : State) : State :=
  drawn (writeMxcsr s
    (orFlags s.mxcsr ((Config.freeFlags s.draws).getLsbD 0) ((Config.freeFlags s.draws).getLsbD 1)))

/-- The SIMD floating-point exception: #XM, or #UD where CR4.OSXMMEXCPT = 0 (60_exceptions R128). -/
def raiseSimd (s : State) : Host.Outcome State Fault Refusal :=
  if osxmmexcpt s then raise .xm (drawnFlags s) else raise (.ud .simdFp) (drawnFlags s)

/-- A failed launch premise: refused (60_exceptions R121, D22), or the exception of the reconstruction where `params.reconstructed`
(R121 b, R122). -/
def premiseFails (s : State) (p : Premise) : Host.Outcome State Fault Refusal :=
  if s.params.reconstructed then
    match p with
    | .taskSwitched => raise .nm s
    | .avx512f => raise (.ud .enable) s
    | .osxsave => raise (.ud .enable) s
    | .xcr0 => raise (.ud .enable) s
  else .refused (.launchPremise p)

/-- The enable conditions, in the order of 60_exceptions R129: the answer that stops the instruction, or none. The mode, #UD of the
CPUID flags that the source names, the other conditions of #UD, then #NM. -/
def checkEnabled (v : VLen) (s : State) : Option (Host.Outcome State Fault Refusal) :=
  if s.mode ≠ .long64 then some (.refused (.mode s.mode))
  else if !hasAvx512dq s then some (raise (.ud .cpuid) s)
  else if needsVl v && !hasAvx512vl s then some (raise (.ud .cpuid) s)
  else if !hasAvx512f s then some (premiseFails s .avx512f)
  else if !osxsave s then some (premiseFails s .osxsave)
  else if !xcr0Enabled s then some (premiseFails s .xcr0)
  else if taskSwitched s then some (premiseFails s .taskSwitched)
  else none

/-! ## Reset, INIT, launch (70_reset R150, R151) -/

/-- RESET of a machine that holds something: memory is not affected (70_reset R150), the registers take the values of R150.
DESIGN CHOICE (log 24): the parameters and the model's draw number stay. Unsafe. -/
def resetEvent (s : State) : State :=
  { State.reset with mem := s.mem, cpuid7Ebx := s.cpuid7Ebx, xlat := s.xlat, params := s.params, draws := s.draws }

/-- INIT leaves the vector registers, the opmask registers and MXCSR unchanged (70_reset R150, which says no more of INIT).
DESIGN CHOICE (log 24): every other register takes its RESET value, and memory and the parameters stay. Unsafe. -/
def initEvent (s : State) : State := { resetEvent s with zmm := s.zmm, k := s.k, mxcsr := s.mxcsr }

/-- The launch: what system software has done before the instruction runs, premises (a) and (b) of 70_reset R151 as simultaneous
facts. It is the host's act (R156), no instruction's. -/
def launch (s : State) : State :=
  { s with
    mode := .long64
    cr4 := s.cr4 ||| 0x40000#64
    xcr0 := s.xcr0 ||| 0xE6#64
    cr0 := s.cr0 &&& ~~~0x8#64 }

end Sys2Proof.Machine
end

