-- ==== Sys2Proof/Machine/Operands.lean ====
section
/-! DEFINITION. Every operand form: lengths, the effective address, the memory operand, the source lanes, the writemask and the
packing of the result (spec 20_memory R42 to R49, 30_encoding R71, 40_vcvttps2qq R95, R96). -/

namespace Sys2Proof.Machine

/-! ## Sizes -/

/-- `KL` (00_scope R5). -/
def lanesOf : VLen → Nat
  | .v128 => 2
  | .v256 => 4
  | .v512 => 8

/-- The bytes of a full memory operand, and its disp8 factor `N` (20_memory R42, R44). -/
def fullBytes (v : VLen) : Nat := 4 * lanesOf v

/-- The bytes of a broadcast operand, and its `N` (20_memory R42, R44). -/
def bcstBytes : Nat := 4

/-! ## Instruction length (30_encoding R71) -/

/-- The number of prefix bytes. -/
def pfxLength (p : Pfx) : Nat := (if p.seg.isSome then 1 else 0) + (if p.a32 then 1 else 0)

/-- The displacement bytes. -/
def dispLength : Disp → Nat
  | .none => 0
  | .d8 _ => 1
  | .d32 _ => 4

/-- The SIB and displacement bytes. -/
def memOperandLength : MemOperand → Nat
  | .base _ d => dispLength d
  | .rip _ => 4
  | .sib _ _ d => 1 + dispLength d
  | .sibNoBase _ _ => 5

/-- `ilen` of a register form. -/
def regLength (p : Pfx) : Nat := pfxLength p + 6

/-- `ilen` of a memory form. -/
def memLength (p : Pfx) (a : MemOperand) : Nat := pfxLength p + 6 + memOperandLength a

/-- `ilen`. -/
def instrLength : Instr → Nat
  | .reg128 p _ _ _ => regLength p
  | .mem128 p _ _ a => memLength p a
  | .bcst128 p _ _ a => memLength p a
  | .reg256 p _ _ _ => regLength p
  | .mem256 p _ _ a => memLength p a
  | .bcst256 p _ _ a => memLength p a
  | .reg512 p _ _ _ => regLength p
  | .mem512 p _ _ a => memLength p a
  | .bcst512 p _ _ a => memLength p a
  | .sae512 p _ _ _ => regLength p

/-! ## Effective address (20_memory R43) -/

/-- Keeps the low 32 bits under the 0x67 prefix. -/
def truncAddr (a32 : Bool) (a : Qword) : Qword := if a32 then (a.setWidth 32).setWidth 64 else a

/-- A base register. -/
def baseValue (s : State) (a32 : Bool) (r : Gpr) : Qword := truncAddr a32 (readGpr s r)

/-- A scaled index register, or 0 without one. -/
def indexValue (s : State) (a32 : Bool) : Option Index → Qword
  | none => 0
  | some i => truncAddr a32 (readGpr s i.reg) <<< i.scale.val

/-- The displacement: 8 bits are scaled by `N`, 32 bits are not (20_memory R44). -/
def dispValue (n : Nat) : Disp → Qword
  | .none => 0
  | .d8 v => v.signExtend 64 * BitVec.ofNat 64 n
  | .d32 v => v.signExtend 64

/-- `ea`: `n` is the disp8 factor, `ilen` the length of the whole instruction. -/
def effectiveAddress (s : State) (a32 : Bool) (n ilen : Nat) : MemOperand → Qword
  | .base b d => truncAddr a32 (baseValue s a32 b + dispValue n d)
  | .rip d => truncAddr a32 (s.pc + BitVec.ofNat 64 ilen + d.signExtend 64)
  | .sib b i d => truncAddr a32 (baseValue s a32 b + indexValue s a32 i + dispValue n d)
  | .sibNoBase i d => truncAddr a32 (indexValue s a32 i + d.signExtend 64)

/-- The base of the segment: only FS and GS have one in 64-bit mode (10_state R27). -/
def segBase (s : State) : Option Seg → Qword
  | some .fs => s.fsBase
  | some .gs => s.gsBase
  | some .es => 0
  | some .cs => if s.mode = .long64 then 0 else s.csBase
  | some .ss => 0
  | some .ds => 0
  | none => 0

/-- `addr` (20_memory R43). -/
def operandAddress (s : State) (p : Pfx) (n : Nat) (a : MemOperand) : Qword :=
  segBase s p.seg + effectiveAddress s p.a32 n (memLength p a) a

/-- A base register that selects the stack segment: RSP or RBP (20_memory R43). -/
def stackBase : MemOperand → Bool
  | .base b _ => b == 4 || b == 5
  | .rip _ => false
  | .sib b _ _ => b == 4 || b == 5
  | .sibNoBase _ _ => false

/-- The segments that have a base in 64-bit mode: FS and GS (10_state R27). -/
def segHasBase : Seg → Bool
  | .es => false
  | .cs => false
  | .ss => false
  | .ds => false
  | .fs => true
  | .gs => true

/-- The operand is in the stack segment. An override other than FS and GS is ignored (30_encoding R81, decision D25): 0x26, 0x2E,
0x36 and 0x3E have one meaning, and the base register decides as if no override stood there. 60_exceptions R126 lets 0x36 put the
operand in the stack segment and any other override put it outside. DESIGN CHOICE (log 25): a field of State chooses between the
two; after reset it is R81's. -/
def usesStackSegment (s : State) (p : Pfx) (a : MemOperand) : Bool :=
  match p.seg with
  | none => stackBase a
  | some g => if s.params.segOverrideIgnored && !segHasBase g then stackBase a else g == .ss

/-! ## The writemask (40_vcvttps2qq R96) -/

/-- Lane `j` is active: no writemask, or its bit is 1. -/
def laneActive (s : State) (m : Masking) (j : Nat) : Bool := m.aaa == 0 || (readMask s m.aaa).getLsbD j

/-- Some lane is active. -/
def someActive (s : State) (m : Masking) (v : VLen) : Bool := (List.range (lanesOf v)).any (laneActive s m)

/-! ## Reading the memory operand (20_memory R45 to R49, 60_exceptions R126, R127, R129) -/

/-- The addresses of `n` bytes, modulo 2^64 (log 8). -/
def byteAddrs (addr : Qword) (n : Nat) : List Qword := (List.range n).map fun i => addr + BitVec.ofNat 64 i

/-- The codes of the page-level refusals. -/
def pageCodes (rs : List (Except Deny Byte)) : List Dword :=
  rs.filterMap fun r =>
    match r with
    | .error (.page c) => some c
    | .error .nonCanonical => none
    | .ok _ => none

/-- A byte was refused as non-canonical. -/
def someNonCanonical (rs : List (Except Deny Byte)) : Bool :=
  rs.any fun r =>
    match r with
    | .error .nonCanonical => true
    | .error (.page _) => false
    | .ok _ => false

/-- The byte that was read; a byte that was not accessed counts as 0 and reaches no lane. -/
def byteOrZero (r : Except Deny Byte) : Byte :=
  match r with
  | .ok b => b
  | .error _ => 0

/-- What a misaligned operand of `n` bytes does under alignment checking (60_exceptions R127, log 10). -/
def alignmentStop (s : State) (addr : Qword) (n : Nat) : Option (Host.Outcome State Fault Refusal) :=
  if alignmentChecking s && addr.toNat % n != 0 then
    if s.params.reconstructed then (if n ≤ 8 || s.params.acWide then some (raise .ac s) else none)
    else some (.refused .alignmentChecked)
  else none

/-- The answers of the accesses to the wanted bytes of an operand; a byte that is not wanted is not accessed. -/
def operandReads (s : State) (addr : Qword) (n : Nat) (wanted : Nat → Bool) : List (Except Deny Byte) :=
  (List.range n).map fun i => if wanted i then readByte s .read (addr + BitVec.ofNat 64 i) else .ok 0

/-- `MemRead(addr, n)` of the bytes that are wanted; `ss`: the stack segment. The faults in the order of 60_exceptions R129:
#SS or #GP, then #PF, then #AC. No wanted byte: no access, no fault. -/
def readOperand (s : State) (ss : Bool) (addr : Qword) (n : Nat) (wanted : Nat → Bool) :
    Except (Host.Outcome State Fault Refusal) (List Byte) :=
  let offsets := (List.range n).filter wanted
  let rs := operandReads s addr n wanted
  if someNonCanonical rs then .error (raise (if ss then .ss else .gp) s)
  else if !(pageCodes rs).isEmpty then
    .error (raisePage s (offsets.map fun i => addr + BitVec.ofNat 64 i) (pageCodes rs))
  else if offsets.isEmpty then .ok (rs.map byteOrZero)
  else match alignmentStop s addr n with
    | some o => .error o
    | none => .ok (rs.map byteOrZero)

/-- The little-endian doubleword of four bytes (20_memory R41). -/
def dwordAt (bs : List Byte) (j : Nat) : Dword :=
  bs.getD (4 * j + 3) 0 ++ bs.getD (4 * j + 2) 0 ++ bs.getD (4 * j + 1) 0 ++ bs.getD (4 * j) 0

/-! ## The source operand `S` as its elements (40_vcvttps2qq R95) -/

/-- Element `j` of a vector register seen as doublewords. -/
def elem32 (x : Vec) (j : Nat) : Dword := x.extractLsb' (32 * j) 32

/-- Element `j` of a vector register seen as quadwords. -/
def elem64 (x : Vec) (j : Nat) : Qword := x.extractLsb' (64 * j) 64

/-- A register source: the low `KL*32` bits. -/
def regSource (v : VLen) (s : State) (src : VReg) : List Dword :=
  (List.range (lanesOf v)).map (elem32 (readVec s src))

/-- Which bytes of a full memory operand are accessed (20_memory R49). -/
def fullWanted (s : State) (m : Masking) (i : Nat) : Bool := !s.params.faultSuppression || laneActive s m (i / 4)

/-- Whether the broadcast element is accessed (20_memory R49). -/
def bcstWanted (v : VLen) (s : State) (m : Masking) (_i : Nat) : Bool := !s.params.faultSuppression || someActive s m v

/-- A full memory source. -/
def memSource (v : VLen) (s : State) (p : Pfx) (m : Masking) (a : MemOperand) :
    Except (Host.Outcome State Fault Refusal) (List Dword) :=
  match readOperand s (usesStackSegment s p a) (operandAddress s p (fullBytes v) a) (fullBytes v) (fullWanted s m) with
  | .ok bs => .ok ((List.range (lanesOf v)).map (dwordAt bs))
  | .error o => .error o

/-- A broadcast source: the one element for every lane. -/
def bcstSource (v : VLen) (s : State) (p : Pfx) (m : Masking) (a : MemOperand) :
    Except (Host.Outcome State Fault Refusal) (List Dword) :=
  match readOperand s (usesStackSegment s p a) (operandAddress s p bcstBytes a) bcstBytes (bcstWanted v s m) with
  | .ok bs => .ok (List.replicate (lanesOf v) (dwordAt bs 0))
  | .error o => .error o

/-! ## The lane loop (40_vcvttps2qq R90, R96) -/

/-- One lane: converted where active; else the old element (merging) or 0 (zeroing), and no signal. -/
def laneResult (active z : Bool) (old : Qword) (x : Dword) (daz : Bool) : Cvt :=
  if active then cvtt x daz else { r := if z then 0 else old, ie := false, pe := false }

/-- The lanes 0 .. KL-1. -/
def laneResults (v : VLen) (s : State) (m : Masking) (dst : VReg) (src : List Dword) : List Cvt :=
  (List.range (lanesOf v)).map fun j =>
    laneResult (laneActive s m j) m.z (elem64 (readVec s dst) j) (src.getD j 0) (mxDAZ s.mxcsr)

/-- Quadwords packed from bit 0 upwards; the bits above them are 0: `DEST[MAXVL-1:VL] := 0`. -/
def packQwords : List Qword → Vec
  | [] => 0
  | x :: xs => (packQwords xs <<< 64) ||| x.setWidth 512

end Sys2Proof.Machine
end

