-- ==== Sys2Proof/Machine/Vcvttps2qq.lean ====
section
/-! DEFINITION. The meanings of the ten forms (spec 40_vcvttps2qq R103 to R112) over the shared procedure EXEC. -/

namespace Sys2Proof.Machine

/-- The end of EXEC: SAE commits and touches no flag (R99); an unmasked exception is raised (R98); else the flags are OR-ed in and
the result is committed (R97); then pc advances (R102). Everything is read before anything is written (R100). -/
def finish (v : VLen) (sae : Bool) (ilen : Nat) (m : Masking) (dst : VReg) (s : State) (src : List Dword) :
    Host.Outcome State Fault Refusal :=
  let lanes := laneResults v s m dst src
  let new := packQwords (lanes.map Cvt.r)
  let ie := lanes.any Cvt.ie
  let pe := lanes.any Cvt.pe
  if sae then .next (advancePc (writeVec s dst new) ilen)
  else if unmasked s.mxcsr ie pe then raiseSimd s
  else .next (advancePc (writeMxcsr (writeVec s dst new) (orFlags s.mxcsr ie pe)) ilen)

/-- EXEC (section 4): the enables, the operand, the lanes, the commit. -/
def execForm (v : VLen) (sae : Bool) (ilen : Nat) (m : Masking) (dst : VReg) (s : State)
    (operand : Except (Host.Outcome State Fault Refusal) (List Dword)) : Host.Outcome State Fault Refusal :=
  match checkEnabled v s with
  | some o => o
  | none =>
    match operand with
    | .error o => o
    | .ok src => finish v sae ilen m dst s src

/-- A plain register form. -/
def execReg (v : VLen) (p : Pfx) (m : Masking) (dst src : VReg) (s : State) : Host.Outcome State Fault Refusal :=
  execForm v false (regLength p) m dst s (.ok (regSource v s src))

/-- A full-memory form. -/
def execMem (v : VLen) (p : Pfx) (m : Masking) (dst : VReg) (a : MemOperand) (s : State) :
    Host.Outcome State Fault Refusal :=
  execForm v false (memLength p a) m dst s (memSource v s p m a)

/-- A broadcast form. -/
def execBcst (v : VLen) (p : Pfx) (m : Masking) (dst : VReg) (a : MemOperand) (s : State) :
    Host.Outcome State Fault Refusal :=
  execForm v false (memLength p a) m dst s (bcstSource v s p m a)

/-- R103: `VCVTTPS2QQ xmm1 {k1}{z}, xmm2`. -/
def execReg128 (p : Pfx) (m : Masking) (dst src : VReg) (s : State) : Host.Outcome State Fault Refusal :=
  execReg .v128 p m dst src s

/-- R104: `VCVTTPS2QQ xmm1 {k1}{z}, m64`. -/
def execMem128 (p : Pfx) (m : Masking) (dst : VReg) (a : MemOperand) (s : State) : Host.Outcome State Fault Refusal :=
  execMem .v128 p m dst a s

/-- R105: `VCVTTPS2QQ xmm1 {k1}{z}, m32bcst`. -/
def execBcst128 (p : Pfx) (m : Masking) (dst : VReg) (a : MemOperand) (s : State) : Host.Outcome State Fault Refusal :=
  execBcst .v128 p m dst a s

/-- R106: `VCVTTPS2QQ ymm1 {k1}{z}, xmm2`. -/
def execReg256 (p : Pfx) (m : Masking) (dst src : VReg) (s : State) : Host.Outcome State Fault Refusal :=
  execReg .v256 p m dst src s

/-- R107: `VCVTTPS2QQ ymm1 {k1}{z}, m128`. -/
def execMem256 (p : Pfx) (m : Masking) (dst : VReg) (a : MemOperand) (s : State) : Host.Outcome State Fault Refusal :=
  execMem .v256 p m dst a s

/-- R108: `VCVTTPS2QQ ymm1 {k1}{z}, m32bcst`. -/
def execBcst256 (p : Pfx) (m : Masking) (dst : VReg) (a : MemOperand) (s : State) : Host.Outcome State Fault Refusal :=
  execBcst .v256 p m dst a s

/-- R109: `VCVTTPS2QQ zmm1 {k1}{z}, ymm2`. -/
def execReg512 (p : Pfx) (m : Masking) (dst src : VReg) (s : State) : Host.Outcome State Fault Refusal :=
  execReg .v512 p m dst src s

/-- R110: `VCVTTPS2QQ zmm1 {k1}{z}, m256`. -/
def execMem512 (p : Pfx) (m : Masking) (dst : VReg) (a : MemOperand) (s : State) : Host.Outcome State Fault Refusal :=
  execMem .v512 p m dst a s

/-- R111: `VCVTTPS2QQ zmm1 {k1}{z}, m32bcst`. -/
def execBcst512 (p : Pfx) (m : Masking) (dst : VReg) (a : MemOperand) (s : State) : Host.Outcome State Fault Refusal :=
  execBcst .v512 p m dst a s

/-- R112: `VCVTTPS2QQ zmm1 {k1}{z}, ymm2{sae}`. -/
def execSae512 (p : Pfx) (m : Masking) (dst src : VReg) (s : State) : Host.Outcome State Fault Refusal :=
  execForm .v512 true (regLength p) m dst s (.ok (regSource .v512 s src))

end Sys2Proof.Machine
end

