-- ==== Sys2Proof/Machine/Dispatch.lean ====
section
/-! DEFINITION. The dispatch: one arm for each form of VCVTTPS2QQ. -/

namespace Sys2Proof.Machine

def exec (i : Instr) (s : State) : Host.Outcome State Fault Refusal :=
  match i with
  | .reg128 p m dst src => Sys2Proof.Machine.execReg128 p m dst src s
  | .mem128 p m dst src => Sys2Proof.Machine.execMem128 p m dst src s
  | .bcst128 p m dst src => Sys2Proof.Machine.execBcst128 p m dst src s
  | .reg256 p m dst src => Sys2Proof.Machine.execReg256 p m dst src s
  | .mem256 p m dst src => Sys2Proof.Machine.execMem256 p m dst src s
  | .bcst256 p m dst src => Sys2Proof.Machine.execBcst256 p m dst src s
  | .reg512 p m dst src => Sys2Proof.Machine.execReg512 p m dst src s
  | .mem512 p m dst src => Sys2Proof.Machine.execMem512 p m dst src s
  | .bcst512 p m dst src => Sys2Proof.Machine.execBcst512 p m dst src s
  | .sae512 p m dst src => Sys2Proof.Machine.execSae512 p m dst src s

end Sys2Proof.Machine
end

