-- ==== Sys2Proof/WellFormed.lean ====
section
/-! DEFINITION. The instructions that an encoding can spell: the checks that the fields of an `Instr` must pass. -/

namespace Sys2Proof

/-- z = 1 needs a writemask (30_encoding R70, R74). -/
def Masking.ok (m : Masking) : Bool := !(m.z && m.aaa == 0)

/-- Register 4 as an index means "no index" (20_memory R43). -/
def indexOk : Option Index → Bool
  | .none => true
  | .some i => i.reg != 4

/-- A base whose low three bits are 101 has no encoding without a displacement (20_memory R43: mod = 00 means RIP-relative, or
no base in a SIB byte). -/
def baseDispOk (b : Gpr) (d : Disp) : Bool := !(b.val % 8 == 5 && d == .none)

/-- Which memory operands ModRM and SIB can spell (20_memory R43): rm = 100 is the SIB escape, so a base whose low three bits
are 100 needs a SIB byte. -/
def MemOperand.ok : MemOperand → Bool
  | .base b d => b.val % 8 != 4 && baseDispOk b d
  | .rip _ => true
  | .sib b i d => indexOk i && baseDispOk b d
  | .sibNoBase i _ => indexOk i

/-- The well-formed instructions. -/
def wellFormed : Instr → Bool
  | .reg128 _ m _ _ => m.ok
  | .mem128 _ m _ a => m.ok && a.ok
  | .bcst128 _ m _ a => m.ok && a.ok
  | .reg256 _ m _ _ => m.ok
  | .mem256 _ m _ a => m.ok && a.ok
  | .bcst256 _ m _ a => m.ok && a.ok
  | .reg512 _ m _ _ => m.ok
  | .mem512 _ m _ a => m.ok && a.ok
  | .bcst512 _ m _ a => m.ok && a.ok
  | .sae512 _ m _ _ => m.ok

end Sys2Proof
end

