-- ==== Sys2Proof/Decode.lean ====
section
/-! DEFINITION. The decoder (spec 30_encoding R78), total on any bytes, and after it the encoder, written from the format table
of 30_encoding R60. -/

namespace Sys2Proof

/-- What bytes decode to: an instruction and the bytes after it, the one illegal encoding the source states (30_encoding R73),
or a rejection by name (R74). -/
inductive DecodeResult where
  | ok (i : Instr) (rest : List Byte)
  | udVvvv
  | reject (r : Reject)
  deriving DecidableEq, Repr

/-! ## Prefixes (30_encoding R72) -/

/-- The segment-override bytes. -/
def segOfByte (b : Byte) : Option Seg :=
  if b = 0x26 then some .es
  else if b = 0x2E then some .cs
  else if b = 0x36 then some .ss
  else if b = 0x3E then some .ds
  else if b = 0x64 then some .fs
  else if b = 0x65 then some .gs
  else none

/-- The name of the rejection of a byte that is neither 0x62 nor an allowed prefix (30_encoding R72, R74). -/
def rejectOfByte (b : Byte) : Reject :=
  if b = 0xF0 then .lockPfx
  else if b = 0x66 then .operandSizePfx
  else if b = 0xF2 then .repnePfx
  else if b = 0xF3 then .repPfx
  else if b.extractLsb' 4 4 = 4#4 then .rexPfx
  else .notEvex

/-- Step 1 of R78: reads the legacy prefixes up to and with the byte 0x62. A repeated prefix is rejected (R71, U17). -/
def scanPfx (p : Pfx) : List Byte → Except Reject (Pfx × List Byte)
  | [] => .error .short
  | b :: bs =>
    if b = 0x62 then .ok (p, bs)
    else match segOfByte b with
      | some g => if p.seg.isSome then .error .repeatedSegPfx else scanPfx { p with seg := some g } bs
      | none =>
        if b = 0x67 then (if p.a32 then .error .repeatedAddrPfx else scanPfx { p with a32 := true } bs)
        else .error (rejectOfByte b)

/-! ## The EVEX payload (30_encoding R61 to R64) -/

/-- The fields of P0, P1, P2 as logical values; `vvvv` as stored. -/
structure Payload where
  r : Bool
  x : Bool
  b : Bool
  r' : Bool
  vvvv : BitVec 4
  z : Bool
  ll : BitVec 2
  bc : Bool
  aaa : BitVec 3
  deriving DecidableEq, Repr

/-- Steps 2 and 4 of R78: the checks of R61 to R64 and R74, then the fields. -/
def readPayload (p0 p1 p2 opcode : Byte) : Except Reject Payload :=
  if p0.getLsbD 3 then .error .p0Reserved
  else if p0.extractLsb' 0 3 ≠ 1#3 then .error .otherMap
  else if p1.getLsbD 7 then .error .w1
  else if !p1.getLsbD 2 then .error .p1Fixed
  else if p1.extractLsb' 0 2 ≠ 1#2 then .error .otherPp
  else if opcode ≠ 0x7A then .error .otherOpcode
  else if !p2.getLsbD 3 then .error .vPrime
  else if p2.getLsbD 7 && p2.extractLsb' 0 3 == 0#3 then .error .zeroingWithoutMask
  else .ok
    { r := !p0.getLsbD 7, x := !p0.getLsbD 6, b := !p0.getLsbD 5, r' := !p0.getLsbD 4
      vvvv := p1.extractLsb' 3 4
      z := p2.getLsbD 7, ll := p2.extractLsb' 5 2, bc := p2.getLsbD 4, aaa := p2.extractLsb' 0 3 }

/-- `L'L` (30_encoding R68); 11 is reserved. -/
def vlenOf (ll : BitVec 2) : Option VLen :=
  if ll = 0 then some .v128 else if ll = 1 then some .v256 else if ll = 2 then some .v512 else none

/-- A 5-bit vector register number (30_encoding R66). -/
def vregOf (hi mid : Bool) (lo : BitVec 3) : VReg := (BitVec.ofBool hi ++ BitVec.ofBool mid ++ lo).toFin

/-- A 4-bit general register number (30_encoding R66). -/
def gprOf (hi : Bool) (lo : BitVec 3) : Gpr := (BitVec.ofBool hi ++ lo).toFin

/-! ## ModRM, SIB, displacement (30_encoding R65 to R67, 20_memory R43) -/

/-- A 32-bit little-endian displacement. -/
def takeDisp32 : List Byte → Except Reject (BitVec 32 × List Byte)
  | b0 :: b1 :: b2 :: b3 :: rest => .ok (b3 ++ b2 ++ b1 ++ b0, rest)
  | _ => .error .short

/-- The displacement that `mod` asks for. -/
def takeDisp (mod : BitVec 2) (bs : List Byte) : Except Reject (Disp × List Byte) :=
  if mod = 0 then .ok (.none, bs)
  else if mod = 1 then
    match bs with
    | b :: rest => .ok (.d8 b, rest)
    | [] => .error .short
  else match takeDisp32 bs with
    | .ok (d, rest) => .ok (.d32 d, rest)
    | .error r => .error r

/-- The SIB index field: number 0100 means no index (20_memory R43). -/
def indexOf (x : Bool) (idx : BitVec 3) (scale : BitVec 2) : Option Index :=
  if gprOf x idx = 4 then none else some { reg := gprOf x idx, scale := scale.toFin }

/-- The memory operand of `mod` other than 11 (20_memory R43). -/
def readMem (mod : BitVec 2) (rm : BitVec 3) (x b : Bool) (bs : List Byte) : Except Reject (MemOperand × List Byte) :=
  if rm = 4 then
    match bs with
    | [] => .error .short
    | s :: rest =>
      let index := indexOf x (s.extractLsb' 3 3) (s.extractLsb' 6 2)
      if mod = 0 ∧ s.extractLsb' 0 3 = 5#3 then
        match takeDisp32 rest with
        | .ok (d, rest') => .ok (.sibNoBase index d, rest')
        | .error r => .error r
      else match takeDisp mod rest with
        | .ok (d, rest') => .ok (.sib (gprOf b (s.extractLsb' 0 3)) index d, rest')
        | .error r => .error r
  else if mod = 0 ∧ rm = 5 then
    match takeDisp32 bs with
    | .ok (d, rest') => .ok (.rip d, rest')
    | .error r => .error r
  else match takeDisp mod bs with
    | .ok (d, rest') => .ok (.base (gprOf b rm) d, rest')
    | .error r => .error r

/-! ## Form selection (30_encoding R78 step 5, R79) -/

/-- The plain register form of a length. -/
def regForm (v : VLen) (p : Pfx) (m : Masking) (dst src : VReg) : Instr :=
  match v with
  | .v128 => .reg128 p m dst src
  | .v256 => .reg256 p m dst src
  | .v512 => .reg512 p m dst src

/-- The full-memory form of a length. -/
def memForm (v : VLen) (p : Pfx) (m : Masking) (dst : VReg) (src : MemOperand) : Instr :=
  match v with
  | .v128 => .mem128 p m dst src
  | .v256 => .mem256 p m dst src
  | .v512 => .mem512 p m dst src

/-- The broadcast form of a length. -/
def bcstForm (v : VLen) (p : Pfx) (m : Masking) (dst : VReg) (src : MemOperand) : Instr :=
  match v with
  | .v128 => .bcst128 p m dst src
  | .v256 => .bcst256 p m dst src
  | .v512 => .bcst512 p m dst src

/-- Steps 5 and 6 of R78, after the prefixes, the payload and the ModRM byte. -/
def readForm (p : Pfx) (e : Payload) (modrm : Byte) (bs : List Byte) : Except Reject (Instr × List Byte) :=
  let mod := modrm.extractLsb' 6 2
  let rm := modrm.extractLsb' 0 3
  let m : Masking := { aaa := e.aaa.toFin, z := e.z }
  let dst := vregOf e.r' e.r (modrm.extractLsb' 3 3)
  if mod = 3 then
    let src := vregOf e.x e.b rm
    if e.bc then .ok (.sae512 p m dst src, bs)
    else match vlenOf e.ll with
      | none => .error .reservedLength
      | some v => .ok (regForm v p m dst src, bs)
  else match vlenOf e.ll with
    | none => .error .reservedLength
    | some v =>
      match readMem mod rm e.x e.b bs with
      | .error r => .error r
      | .ok (a, rest) => .ok (if e.bc then bcstForm v p m dst a else memForm v p m dst a, rest)

/-- Step 3 of R78: vvvv is looked at last, since it gives #UD only where every other check succeeds (30_encoding R73). -/
def finishDecode (e : Payload) : Except Reject (Instr × List Byte) → DecodeResult
  | .error r => .reject r
  | .ok (i, rest) => if e.vvvv = 15 then .ok i rest else .udVvvv

/-- The bytes after the byte 0x62. -/
def decodeEvex (p : Pfx) : List Byte → DecodeResult
  | p0 :: p1 :: p2 :: opcode :: modrm :: bs =>
    match readPayload p0 p1 p2 opcode with
    | .error r => .reject r
    | .ok e => finishDecode e (readForm p e modrm bs)
  | _ => .reject .short

/-- The decoder, total on any bytes (30_encoding R78). -/
def decode (bs : List Byte) : DecodeResult :=
  match scanPfx {} bs with
  | .error r => .reject r
  | .ok (p, rest) => decodeEvex p rest

/-! ## The encoder -/

/-- The byte of a segment override. -/
def segByte : Seg → Byte
  | .es => 0x26
  | .cs => 0x2E
  | .ss => 0x36
  | .ds => 0x3E
  | .fs => 0x64
  | .gs => 0x65

/-- The prefix bytes, the segment override first. -/
def encodePfx (p : Pfx) : List Byte :=
  (match p.seg with
    | some g => [segByte g]
    | none => []) ++ (if p.a32 then [0x67] else [])

/-- P0 = `~R ~X ~B ~R' 0 001` (30_encoding R61). -/
def p0Byte (r x b r' : Bool) : Byte :=
  BitVec.ofBool (!r) ++ BitVec.ofBool (!x) ++ BitVec.ofBool (!b) ++ BitVec.ofBool (!r') ++ 1#4

/-- P1 = `0 vvvv 1 01` (30_encoding R62). -/
def p1Byte (vvvv : BitVec 4) : Byte := 0#1 ++ vvvv ++ 5#3

/-- P2 = `z L'L b 1 aaa` (30_encoding R63). -/
def p2Byte (z : Bool) (ll : BitVec 2) (bc : Bool) (aaa : KReg) : Byte :=
  BitVec.ofBool z ++ ll ++ BitVec.ofBool bc ++ 1#1 ++ (BitVec.ofFin aaa : BitVec 3)

/-- ModRM, and a SIB byte too: two bits, three bits, three bits. -/
def modrmByte (mod : BitVec 2) (reg rm : BitVec 3) : Byte := mod ++ reg ++ rm

/-- Bit 3 of a register number. -/
def bit3 (n : Nat) : Bool := n.testBit 3

/-- Bit 4 of a vector register number. -/
def bit4 (n : Nat) : Bool := n.testBit 4

/-- The low three bits of a register number. -/
def low3 (n : Nat) : BitVec 3 := BitVec.ofNat 3 n

/-- The four bytes of a displacement, little-endian. -/
def disp32Bytes (d : BitVec 32) : List Byte :=
  [d.extractLsb' 0 8, d.extractLsb' 8 8, d.extractLsb' 16 8, d.extractLsb' 24 8]

/-- `mod` of a displacement. -/
def dispMod : Disp → BitVec 2
  | .none => 0
  | .d8 _ => 1
  | .d32 _ => 2

/-- The bytes of a displacement. -/
def dispBytes : Disp → List Byte
  | .none => []
  | .d8 v => [v]
  | .d32 v => disp32Bytes v

/-- The SIB byte. -/
def sibByte (i : Option Index) (base : BitVec 3) : Byte :=
  match i with
  | none => modrmByte 0 4 base
  | some j => modrmByte (BitVec.ofFin j.scale) (low3 j.reg) base

/-- EVEX.X of an index. -/
def indexX : Option Index → Bool
  | none => false
  | some j => bit3 j.reg

/-- mod, rm, X, B and the bytes after ModRM. -/
structure MemFields where
  mod : BitVec 2
  rm : BitVec 3
  x : Bool
  b : Bool
  tail : List Byte
  deriving DecidableEq, Repr

/-- The encoding of a memory operand (20_memory R43). -/
def memFields : MemOperand → MemFields
  | .base b d => { mod := dispMod d, rm := low3 b, x := false, b := bit3 b, tail := dispBytes d }
  | .rip d => { mod := 0, rm := 5, x := false, b := false, tail := disp32Bytes d }
  | .sib b i d => { mod := dispMod d, rm := 4, x := indexX i, b := bit3 b, tail := sibByte i (low3 b) :: dispBytes d }
  | .sibNoBase i d => { mod := 0, rm := 4, x := indexX i, b := false, tail := sibByte i 5 :: disp32Bytes d }

/-- `L'L` of a length (30_encoding R68). -/
def llOf : VLen → BitVec 2
  | .v128 => 0
  | .v256 => 1
  | .v512 => 2

/-- The bytes of a register form with the stored `vvvv`, `L'L` and `b` given. -/
def encodeReg (vvvv : BitVec 4) (ll : BitVec 2) (bc : Bool) (p : Pfx) (m : Masking) (dst src : VReg) : List Byte :=
  encodePfx p ++
    [0x62, p0Byte (bit3 dst) (bit4 src) (bit3 src) (bit4 dst), p1Byte vvvv, p2Byte m.z ll bc m.aaa, 0x7A,
      modrmByte 3 (low3 dst) (low3 src)]

/-- The bytes of a memory form with the stored `vvvv`, `L'L` and `b` given. -/
def encodeMem (vvvv : BitVec 4) (ll : BitVec 2) (bc : Bool) (p : Pfx) (m : Masking) (dst : VReg) (a : MemOperand) :
    List Byte :=
  let f := memFields a
  encodePfx p ++
    [0x62, p0Byte (bit3 dst) f.x f.b (bit4 dst), p1Byte vvvv, p2Byte m.z ll bc m.aaa, 0x7A,
      modrmByte f.mod (low3 dst) f.rm] ++ f.tail

/-- The bytes of an instruction with any stored `vvvv`: 1111b is the instruction itself, any other the illegal encoding of
30_encoding R73. -/
def encodeWith (vvvv : BitVec 4) : Instr → List Byte
  | .reg128 p m dst src => encodeReg vvvv 0 false p m dst src
  | .mem128 p m dst a => encodeMem vvvv 0 false p m dst a
  | .bcst128 p m dst a => encodeMem vvvv 0 true p m dst a
  | .reg256 p m dst src => encodeReg vvvv 1 false p m dst src
  | .mem256 p m dst a => encodeMem vvvv 1 false p m dst a
  | .bcst256 p m dst a => encodeMem vvvv 1 true p m dst a
  | .reg512 p m dst src => encodeReg vvvv 2 false p m dst src
  | .mem512 p m dst a => encodeMem vvvv 2 false p m dst a
  | .bcst512 p m dst a => encodeMem vvvv 2 true p m dst a
  | .sae512 p m dst src => encodeReg vvvv 0 true p m dst src

/-- The encoder: the canonical bytes of a well-formed instruction. -/
def encode (i : Instr) : List Byte := encodeWith 15 i

/-- The same bytes with another stored `vvvv` field, found behind the legal prefixes: the pattern of 30_encoding R73. -/
def withVvvv (vvvv : BitVec 4) : List Byte → List Byte
  | [] => []
  | b :: bs =>
    if b = 0x62 then
      match bs with
      | p0 :: p1 :: rest => b :: p0 :: (p1.extractLsb' 7 1 ++ vvvv ++ p1.extractLsb' 0 3) :: rest
      | _ => b :: bs
    else b :: withVvvv vvvv bs

/-! ## The host's table words (log 14) -/

/-- How many bytes a fetch looks at: no VCVTTPS2QQ without repeated prefixes is longer (30_encoding R71). -/
def windowBytes : Nat := 15

/-- The bytes of a word whose bit 0 is the least significant bit of the first byte; the bits above `nbits` are 0. -/
def wordBytes (nbits w : Nat) : List Byte :=
  (List.range windowBytes).map fun i => BitVec.ofNat 8 ((w % 2 ^ nbits) >>> (8 * i))

/-- The number whose bits are the bytes, the first byte least significant. -/
def bytesWord : List Byte → Nat
  | [] => 0
  | b :: bs => b.toNat + 256 * bytesWord bs

/-- The instruction the decoder reads from a table word. -/
def decodeTableWord (nbits w : Nat) : Option Instr :=
  match decode (wordBytes nbits w) with
  | .ok i _ => some i
  | .udVvvv => none
  | .reject _ => none

end Sys2Proof
end

