-- ==== Sys2Proof/Machine/Fetch.lean ====
section
/-! DEFINITION. Fetching the instruction at pc and placing one there (spec 30_encoding R78, 10_state R26, 60_exceptions R126). -/

namespace Sys2Proof.Machine

/-- The bytes from an address upwards that can be fetched, at most `n`, and the refusal that ended them. DESIGN CHOICE (log 12): the
addresses wrap at 2^64. -/
def fetchFrom (s : State) : Nat → Qword → List Byte × Option Deny
  | 0, _ => ([], none)
  | n + 1, a =>
    match readByte s .fetch a with
    | .error d => ([], some d)
    | .ok b => (b :: (fetchFrom s n (a + 1)).1, (fetchFrom s n (a + 1)).2)

/-- The bytes at pc. In 64-bit mode the CS base counts as 0 (10_state R27). -/
def fetchWindow (s : State) : List Byte × Option Deny := fetchFrom s windowBytes s.pc

/-- A fetch that fails: not modelled (60_exceptions R126), hence refused; where `params.reconstructed`, the fault "the same way" as a
data read's. -/
def fetchFails (s : State) (d : Deny) : Host.Outcome State Fault Refusal :=
  if s.params.reconstructed then
    match d with
    | .nonCanonical => raise .gp s
    | .page code => raisePage s (byteAddrs s.pc windowBytes) [code]
  else .refused .fetchUnreadable

/-- What the fetch gives: an instruction to run, or the answer that ends the step. -/
inductive Fetched where
  | run (i : Instr)
  | stop (o : Host.Outcome State Fault Refusal)

/-- Steps 1 to 6 of 30_encoding R78 at pc. DESIGN CHOICE (log 12): an instruction that reaches 2^64 is refused, but a pattern with
vvvv other than 1111b raises #UD (30_encoding R73) at any pc, also where its bytes pass 2^64 and go on at address 0; 10_state R26
leaves that wrap undefined. Unsafe for such a pattern. -/
def fetchDecode (s : State) : Fetched :=
  if s.mode ≠ .long64 then .stop (.refused (.mode s.mode))
  else match decode (fetchWindow s).1 with
    | .ok i _ => if s.pc.toNat + instrLength i < 2 ^ 64 then .run i else .stop (.refused .pcWraps)
    | .udVvvv => .stop (raise (.ud .vvvv) s)
    | .reject r =>
      match r, (fetchWindow s).2 with
      | .short, some d => .stop (fetchFails s d)
      | _, _ => .stop (.refused (.encoding r))

/-- The bytes of one instruction placed at pc of a launched machine: the host's act (70_reset R151 f, R156; log 13). Overrides of
`translate` for the fetch of those bytes are dropped, so that they are what is fetched. -/
def placeAtPc (s : State) (bs : List Byte) : State :=
  let l := launch s
  { l with
    mem := l.mem.writeBytes l.pc bs
    xlat := l.xlat.filter fun e => !(e.access == .fetch && (byteAddrs l.pc bs.length).contains e.addr) }

end Sys2Proof.Machine
end

