-- ==== Sys2Proof/Machine/Step.lean ====
section
/-! DEFINITION. One step: fetch, decode, execute (spec 30_encoding R78), and the placing of an instruction for the host. -/

namespace Sys2Proof.Machine

/-- One step of the machine. -/
def step (s : State) : Host.Outcome State Fault Refusal :=
  match fetchDecode s with
  | .run i => exec i s
  | .stop o => o

/-- `s` launched, with the instruction whose bits are `w` at pc (log 13, log 14). -/
def State.withFetchWord (s : State) (nbits w : Nat) : State := placeAtPc s (wordBytes nbits w)

end Sys2Proof.Machine
end

