-- ==== Sys2Proof/Safety.lean ====
section
/-! DEFINITION. What claims are stated in: the parts of an instruction, the legal prefix bytes, the launch premises (spec 70_reset R151), the invariant of
every step, and the end of a run (R155). -/

namespace Sys2Proof.Machine

/-! ## The parts of an instruction (30_encoding R79) -/

/-- Its vector length. -/
def instrVLen : Instr → VLen
  | .reg128 _ _ _ _ => .v128
  | .mem128 _ _ _ _ => .v128
  | .bcst128 _ _ _ _ => .v128
  | .reg256 _ _ _ _ => .v256
  | .mem256 _ _ _ _ => .v256
  | .bcst256 _ _ _ _ => .v256
  | .reg512 _ _ _ _ => .v512
  | .mem512 _ _ _ _ => .v512
  | .bcst512 _ _ _ _ => .v512
  | .sae512 _ _ _ _ => .v512

/-- The SAE form. -/
def instrSae : Instr → Bool
  | .reg128 _ _ _ _ => false
  | .mem128 _ _ _ _ => false
  | .bcst128 _ _ _ _ => false
  | .reg256 _ _ _ _ => false
  | .mem256 _ _ _ _ => false
  | .bcst256 _ _ _ _ => false
  | .reg512 _ _ _ _ => false
  | .mem512 _ _ _ _ => false
  | .bcst512 _ _ _ _ => false
  | .sae512 _ _ _ _ => true

/-- Its writemask fields. -/
def instrMask : Instr → Masking
  | .reg128 _ m _ _ => m
  | .mem128 _ m _ _ => m
  | .bcst128 _ m _ _ => m
  | .reg256 _ m _ _ => m
  | .mem256 _ m _ _ => m
  | .bcst256 _ m _ _ => m
  | .reg512 _ m _ _ => m
  | .mem512 _ m _ _ => m
  | .bcst512 _ m _ _ => m
  | .sae512 _ m _ _ => m

/-- Its destination. -/
def instrDst : Instr → VReg
  | .reg128 _ _ d _ => d
  | .mem128 _ _ d _ => d
  | .bcst128 _ _ d _ => d
  | .reg256 _ _ d _ => d
  | .mem256 _ _ d _ => d
  | .bcst256 _ _ d _ => d
  | .reg512 _ _ d _ => d
  | .mem512 _ _ d _ => d
  | .bcst512 _ _ d _ => d
  | .sae512 _ _ d _ => d

/-- Its source elements, or the answer that reading them gives (40_vcvttps2qq R95). -/
def sourceOf (i : Instr) (s : State) : Except (Host.Outcome State Fault Refusal) (List Dword) :=
  match i with
  | .reg128 _ _ _ src => .ok (regSource .v128 s src)
  | .mem128 p m _ a => memSource .v128 s p m a
  | .bcst128 p m _ a => bcstSource .v128 s p m a
  | .reg256 _ _ _ src => .ok (regSource .v256 s src)
  | .mem256 p m _ a => memSource .v256 s p m a
  | .bcst256 p m _ a => bcstSource .v256 s p m a
  | .reg512 _ _ _ src => .ok (regSource .v512 s src)
  | .mem512 p m _ a => memSource .v512 s p m a
  | .bcst512 p m _ a => bcstSource .v512 s p m a
  | .sae512 _ _ _ src => .ok (regSource .v512 s src)

/-! ## Prefix bytes (30_encoding R72) -/

/-- The byte strings that spell the legal prefixes: at most one segment override and one 0x67, in either order. -/
def PfxBytes (p : Pfx) (pre : List Byte) : Prop :=
  pre = encodePfx p ∨ ∃ g, p = { seg := some g, a32 := true } ∧ pre = [0x67, segByte g]

/-! ## Premises, invariant, runs -/

/-- Premises (a), (b) and (c) of 70_reset R151 for a form of length `v`: what checkEnabled asks for. -/
def Enabled (v : VLen) (s : State) : Prop :=
  s.mode = .long64 ∧ osxsave s = true ∧ xcr0Enabled s = true ∧ taskSwitched s = false ∧ hasAvx512f s = true ∧
    hasAvx512dq s = true ∧ (needsVl v = true → hasAvx512vl s = true)

/-- Premises (a), (b), (d) of 70_reset R151. -/
def Launched (s : State) : Prop :=
  s.mode = .long64 ∧ osxsave s = true ∧ xcr0Enabled s = true ∧ taskSwitched s = false ∧ alignmentChecking s = false

/-- Holds of every state a run reaches: memory is in canonical form, and the reserved bits of MXCSR are 0 (10_state R24). -/
def StateInv (s : State) : Prop := s.mem.wf = true ∧ s.mxcsr.extractLsb' 16 16 = 0#16

/-- The program bytes lie at `base` (70_reset R151 f): each is what a fetch there gives. -/
def Loaded (s : State) (base : Qword) (bytes : List Byte) : Prop :=
  ∀ i, i < bytes.length → readByte s .fetch (base + BitVec.ofNat 64 i) = .ok (bytes.getD i 0)

/-- The bytes decode as a sequence that exactly covers them, every item an admitted form or the vvvv pattern (70_reset R155). The
first argument bounds the number of items. -/
def admittedWithin : Nat → List Byte → Bool
  | _, [] => true
  | 0, _ :: _ => false
  | n + 1, b :: bs =>
    match decode (b :: bs) with
    | .ok _ rest => admittedWithin n rest
    | .reject _ => false
    | .udVvvv =>
      match decode (withVvvv 15 (b :: bs)) with
      | .ok _ rest => admittedWithin n rest
      | .udVvvv => false
      | .reject _ => false

/-- An admitted program (70_reset R155). -/
def admittedProgram (bytes : List Byte) : Bool := admittedWithin bytes.length bytes

/-- How a run of a program stands after a number of steps (70_reset R155). -/
inductive RunEnd where
  /-- pc is at the end of the program and no fault is recorded: success. -/
  | success (s : State)
  /-- An exception ended the run. -/
  | faulted (f : Fault)
  /-- The model gives no meaning. -/
  | refused (r : Refusal)
  /-- The steps were used up before the end. -/
  | running (s : State)

/-- Runs until pc reaches `stop`, at most `n` steps. -/
def runUntil (stop : Qword) : Nat → State → RunEnd
  | 0, s => if s.pc = stop then .success s else .running s
  | n + 1, s =>
    if s.pc = stop then .success s
    else match step s with
      | .next s' => runUntil stop n s'
      | .fault f => .faulted f
      | .refused r => .refused r

end Sys2Proof.Machine
end

