-- ==== Sys2Proof/Certificates/Slice0/Obligations.lean ====
section
/-! DEFINITION. The statements for the provers, and the predicates they are written in. -/

namespace Sys2Proof.Machine

/-! ## Predicates -/

/-- A signal of an active lane: `f` is `Cvt.ie` or `Cvt.pe`; `src j` is source element `j` (40_vcvttps2qq R97). -/
def Signals (f : Cvt → Bool) (i : Instr) (s : State) (src : Nat → Dword) : Prop :=
  ∃ j < lanesOf (instrVLen i), laneActive s (instrMask i) j = true ∧ f (cvtt (src j) (mxDAZ s.mxcsr)) = true

/-- No exception is signalled that is not masked (40_vcvttps2qq R97). -/
def AllMasked (i : Instr) (s : State) (src : Nat → Dword) : Prop :=
  (Signals Cvt.ie i s src → mxIM s.mxcsr = true) ∧ (Signals Cvt.pe i s src → mxPM s.mxcsr = true)

/-- The destination, element by element (40_vcvttps2qq R96). -/
def LanesWritten (i : Instr) (s : State) (src : Nat → Dword) (t : State) : Prop :=
  ∀ j < 8, elem64 (readVec t (instrDst i)) j =
    if j < lanesOf (instrVLen i) then
      if laneActive s (instrMask i) j then (cvtt (src j) (mxDAZ s.mxcsr)).r
      else if (instrMask i).z then 0
      else elem64 (readVec s (instrDst i)) j
    else 0

/-- MXCSR: IE and PE are OR-ed in, but not by the SAE form; every other bit stays (40_vcvttps2qq R97, R99). -/
def FlagsWritten (i : Instr) (s : State) (src : Nat → Dword) (t : State) : Prop :=
  (mxIE t.mxcsr = true ↔ mxIE s.mxcsr = true ∨ (instrSae i = false ∧ Signals Cvt.ie i s src)) ∧
  (mxPE t.mxcsr = true ↔ mxPE s.mxcsr = true ∨ (instrSae i = false ∧ Signals Cvt.pe i s src)) ∧
  ∀ b, b ≠ 0 → b ≠ 5 → t.mxcsr.getLsbD b = s.mxcsr.getLsbD b

/-- The whole effect of a completed instruction: the destination, the flags, pc, and nothing else. -/
def Completed (i : Instr) (s : State) (src : Nat → Dword) (t : State) : Prop :=
  LanesWritten i s src t ∧ FlagsWritten i s src t ∧ t.pc = s.pc + BitVec.ofNat 64 (instrLength i) ∧
    (∀ r, r ≠ instrDst i → readVec t r = readVec s r) ∧
    t = { s with zmm := t.zmm, mxcsr := t.mxcsr, pc := t.pc }

/-- The bytes `b` are what reading `n` bytes at `addr` gives, where `wanted` (20_memory R47, R49). -/
def Readable (s : State) (addr : Qword) (n : Nat) (wanted : Nat → Bool) (b : Nat → Byte) : Prop :=
  ∀ k < n, wanted k = true → readByte s .read (addr + BitVec.ofNat 64 k) = .ok (b k)

/-- Alignment checking does not stop a read of `n` bytes (20_memory R46, 60_exceptions R127; log 10). -/
def AlignmentPasses (s : State) (addr : Qword) (n : Nat) (wanted : Nat → Bool) : Prop :=
  alignmentChecking s = false ∨ addr.toNat % n = 0 ∨ (∀ k < n, wanted k = false) ∨
    (s.params.reconstructed = true ∧ s.params.acWide = false ∧ 8 < n)

/-- The little-endian doubleword `j` of bytes (20_memory R41). -/
def dwordOf (b : Nat → Byte) (j : Nat) : Dword := b (4 * j + 3) ++ b (4 * j + 2) ++ b (4 * j + 1) ++ b (4 * j)

/-- The fetch at pc begins with these bytes, in 64-bit mode. -/
def FetchGives (s : State) (bs : List Byte) : Prop := s.mode = .long64 ∧ ∃ tail, (fetchWindow s).1 = bs ++ tail

/-- The value of a finite binary32 pattern (40_vcvttps2qq R92). -/
def f32Value (x : Dword) : ℚ :=
  (if f32Sign x then -1 else 1) *
    (if f32Exp x = 0 then (f32Frac x : ℚ) * 2 ^ (-149 : ℤ) else ((2 : ℚ) ^ 23 + f32Frac x) * 2 ^ ((f32Exp x : ℤ) - 150))

/-- The value that is converted: a denormal is a zero under DAZ (40_vcvttps2qq R91). -/
def cvttValue (x : Dword) (daz : Bool) : ℚ := if daz = true ∧ f32Exp x = 0 then 0 else f32Value x

/-- Truncation toward zero (00_scope R11). -/
def truncate (q : ℚ) : ℤ := if 0 ≤ q then ⌊q⌋ else ⌈q⌉

/-- The displacement as an integer; 8 bits are multiplied by `n` (20_memory R44). -/
def dispInt (n : Nat) : Disp → Int
  | .none => 0
  | .d8 v => v.toInt * n
  | .d32 v => v.toInt

/-- The index register times its scale, as an integer. -/
def indexInt (s : State) : Option Index → Int
  | none => 0
  | some i => (readGpr s i.reg).toNat * 2 ^ i.scale.val

/-- The effective address before it wraps, as an integer (20_memory R43). -/
def addressInt (s : State) (n ilen : Nat) : MemOperand → Int
  | .base b d => (readGpr s b).toNat + dispInt n d
  | .rip d => s.pc.toNat + ilen + d.toInt
  | .sib b i d => (readGpr s b).toNat + indexInt s i + dispInt n d
  | .sibNoBase i d => indexInt s i + d.toInt

/-- One bit as a number. -/
def bitNat (b : Bool) : Nat := if b then 1 else 0

end Sys2Proof.Machine

open Sys2Proof Sys2Proof.Machine

/-! ## Encoding -/

/-- Words of 95_test_vectors, section 2.2, decode to the instructions the rows name. -/
def Obligations.SpecWordsDecode : Prop :=
  decode [0x62, 0xF1, 0x7D, 0x08, 0x7A, 0xCA] = .ok (.reg128 {} ⟨0, false⟩ 1 2) [] ∧
  decode [0x62, 0xF1, 0x7D, 0x9B, 0x7A, 0xF7] = .ok (.sae512 {} ⟨3, true⟩ 6 7) [] ∧
  decode [0x62, 0x01, 0x7D, 0x4F, 0x7A, 0x74, 0xF5, 0x08] = .ok (.mem512 {} ⟨7, false⟩ 30 (.sib 13 (some ⟨14, 3⟩) (.d8 8))) [] ∧
  decode [0x64, 0x62, 0xF1, 0x7D, 0x48, 0x7A, 0x08] = .ok (.mem512 { seg := some .fs } ⟨0, false⟩ 1 (.base 0 .none)) [] ∧
  decode [0x62, 0xF1, 0x75, 0x48, 0x7A, 0xCA] = .udVvvv

/-- The decoder gives back every well-formed instruction that the encoder spells, whatever bytes follow (30_encoding R60 to R72,
R78). -/
def Obligations.DecodeOfEncodeIsInstruction : Prop :=
  ∀ (i : Instr) (rest : List Byte), wellFormed i = true → decode (encode i ++ rest) = .ok i rest

/-- What decodes is well-formed, and the decoder takes exactly `ilen` bytes (30_encoding R71, R78). -/
def Obligations.DecodedIsWellFormedAndTakesIlen : Prop :=
  ∀ (bs : List Byte) (i : Instr) (rest : List Byte), decode bs = .ok i rest →
    wellFormed i = true ∧ instrLength i ≤ bs.length ∧ rest = bs.drop (instrLength i)

/-- 30_encoding R73: the same bytes with another vvvv raise #UD, before anything is read or changed. R73 excepts no pc; which bytes are
fetched where they pass 2^64 is the model's choice (log 12) and stands in the hypothesis. -/
def Obligations.VvvvOtherThan1111RaisesUd : Prop :=
  ∀ (s : State) (bs : List Byte) (i : Instr) (rest : List Byte) (v : BitVec 4), s.mode = .long64 →
    decode bs = .ok i rest → v ≠ 15 → (fetchWindow s).1 = withVvvv v bs → step s = .fault (.ud .vvvv s)

/-- The decoder answers #UD for nothing else: with vvvv = 1111b the bytes would be an instruction (30_encoding R73). -/
def Obligations.DecodeUdOnlyForVvvv : Prop :=
  ∀ bs : List Byte, decode bs = .udVvvv → ∃ (i : Instr) (rest : List Byte), decode (withVvvv 15 bs) = .ok i rest

/-- 30_encoding R66, R68, R69, R70: after any legal prefixes, the destination, the writemask, the form and the source are read from
their bits; a memory operand is the one that readMem reads (MemoryOperandIsReadFromItsBits says which). The bit positions are the
spec's own, from general knowledge (decision D7; log 15). -/
def Obligations.FieldsAreReadFromTheirBits : Prop :=
  ∀ (p : Pfx) (pre : List Byte) (p0 p1 p2 modrm : Byte) (tail : List Byte) (i : Instr) (rest : List Byte), PfxBytes p pre →
    decode (pre ++ 0x62 :: p0 :: p1 :: p2 :: 0x7A :: modrm :: tail) = .ok i rest →
      ((instrDst i).val = 16 * bitNat (!p0.getLsbD 4) + 8 * bitNat (!p0.getLsbD 7) + (modrm.extractLsb' 3 3).toNat ∧
        (instrMask i).aaa.val = (p2.extractLsb' 0 3).toNat ∧ (instrMask i).z = p2.getLsbD 7) ∧
      (modrm.extractLsb' 6 2 = 3#2 → rest = tail ∧
        ∃ src : VReg,
          src.val = 16 * bitNat (!p0.getLsbD 6) + 8 * bitNat (!p0.getLsbD 5) + (modrm.extractLsb' 0 3).toNat ∧
          (p2.getLsbD 4 = true → i = .sae512 p (instrMask i) (instrDst i) src) ∧
          (p2.getLsbD 4 = false →
            ∃ v, llOf v = p2.extractLsb' 5 2 ∧ i = regForm v p (instrMask i) (instrDst i) src)) ∧
      (modrm.extractLsb' 6 2 ≠ 3#2 →
        ∃ v a, llOf v = p2.extractLsb' 5 2 ∧
          readMem (modrm.extractLsb' 6 2) (modrm.extractLsb' 0 3) (!p0.getLsbD 6) (!p0.getLsbD 5) tail = .ok (a, rest) ∧
          (p2.getLsbD 4 = true → i = bcstForm v p (instrMask i) (instrDst i) a) ∧
          (p2.getLsbD 4 = false → i = memForm v p (instrMask i) (instrDst i) a))

/-- 30_encoding R65 to R67, 20_memory R43: a memory operand is read from mod, rm, X, B, SIB and the displacement bytes. The bit
positions are the spec's own, from general knowledge (decision D7; log 15). -/
def Obligations.MemoryOperandIsReadFromItsBits : Prop :=
  ∀ (mod : BitVec 2) (rm : BitVec 3) (x b : Bool) (bs : List Byte) (a : MemOperand) (rest : List Byte),
    mod ≠ 3 → readMem mod rm x b bs = .ok (a, rest) →
      (rm ≠ 4 → mod = 0 → rm = 5 → ∃ d, a = .rip d ∧ bs = disp32Bytes d ++ rest) ∧
      (rm ≠ 4 → ¬(mod = 0 ∧ rm = 5) →
        ∃ r d, a = .base r d ∧ r.val = 8 * bitNat b + rm.toNat ∧ dispMod d = mod ∧ bs = dispBytes d ++ rest) ∧
      (rm = 4 →
        ∃ (sib : Byte) (tail : List Byte) (idx : Option Index),
          bs = sib :: tail ∧
          (idx = none ↔ x = false ∧ sib.extractLsb' 3 3 = 4#3) ∧
          (∀ j, idx = some j →
            j.reg.val = 8 * bitNat x + (sib.extractLsb' 3 3).toNat ∧ j.scale.val = (sib.extractLsb' 6 2).toNat) ∧
          (mod = 0 → sib.extractLsb' 0 3 = 5#3 → ∃ d, a = .sibNoBase idx d ∧ tail = disp32Bytes d ++ rest) ∧
          (¬(mod = 0 ∧ sib.extractLsb' 0 3 = 5#3) →
            ∃ r d, a = .sib r idx d ∧ r.val = 8 * bitNat b + (sib.extractLsb' 0 3).toNat ∧ dispMod d = mod ∧
              tail = dispBytes d ++ rest))

/-- 30_encoding R69: the SAE form ignores L'L. The spec's own, from general knowledge (decision D9). -/
def Obligations.SaeIgnoresVectorLengthBits : Prop :=
  ∀ (ll : BitVec 2) (p : Pfx) (m : Masking) (dst src : VReg) (rest : List Byte), m.ok = true →
    decode (encodeReg 15 ll true p m dst src ++ rest) = .ok (.sae512 p m dst src) rest

/-- 30_encoding R74, R72: a step refuses the neighbouring encodings, by name, and raises nothing, after any legal prefixes in
either order (PrefixesAreReadFromTheirBytes: those are what the decoder accepts). The spec's own decision D16. -/
def Obligations.NeighbouringEncodingsAreRefused : Prop :=
  (∀ (s : State) (q : Pfx) (pre : List Byte) (b : Byte), PfxBytes q pre →
    b = 0xF0 ∨ b = 0x66 ∨ b = 0xF2 ∨ b = 0xF3 ∨ b.extractLsb' 4 4 = 4#4 →
    FetchGives s (pre ++ [b]) → ∃ r, step s = .refused (.encoding r)) ∧
  (∀ (s : State) (q : Pfx) (pre : List Byte) (p0 p1 p2 opcode modrm : Byte), PfxBytes q pre →
    FetchGives s (pre ++ [0x62, p0, p1, p2, opcode, modrm]) →
    (p0.getLsbD 3 = true ∨ p0.extractLsb' 0 3 ≠ 1#3 ∨ p1.getLsbD 7 = true ∨ p1.getLsbD 2 = false ∨
      p1.extractLsb' 0 2 ≠ 1#2 ∨ opcode ≠ 0x7A ∨ p2.getLsbD 3 = false ∨
      (p2.getLsbD 7 = true ∧ p2.extractLsb' 0 3 = 0#3) ∨
      (p2.extractLsb' 5 2 = 3#2 ∧ ¬(p2.getLsbD 4 = true ∧ modrm.extractLsb' 6 2 = 3#2))) →
    ∃ r, step s = .refused (.encoding r)) ∧
  (∀ (s : State) (q : Pfx) (pre : List Byte) (g : Seg), PfxBytes q pre → q.seg.isSome = true →
    FetchGives s (pre ++ [segByte g]) →
    step s = .refused (.encoding .repeatedSegPfx)) ∧
  (∀ (s : State) (q : Pfx) (pre : List Byte), PfxBytes q pre → q.a32 = true →
    FetchGives s (pre ++ [0x67]) →
    step s = .refused (.encoding .repeatedAddrPfx))

/-! ## Addresses and memory -/

/-- 20_memory R43, R44: the effective address in integers, and the linear address. The spec's own, from general knowledge (decisions
D8, D25). The clause that adds the CS base under 0x2E outside 64-bit mode is the model's DESIGN CHOICE (log 17). -/
def Obligations.AddressIsTheIntegerFormula : Prop :=
  ∀ (s : State) (p : Pfx) (n : Nat) (a : MemOperand),
    ((effectiveAddress s p.a32 n (memLength p a) a).toNat : Int) =
        addressInt s n (memLength p a) a % 2 ^ (if p.a32 then 32 else 64) ∧
    (operandAddress s p n a).toNat =
      ((if p.seg = some .fs then s.fsBase.toNat else if p.seg = some .gs then s.gsBase.toNat
        else if p.seg = some .cs ∧ s.mode ≠ .long64 then s.csBase.toNat else 0) +
        (effectiveAddress s p.a32 n (memLength p a) a).toNat) % 2 ^ 64

/-- 30_encoding R81: a scaled 8-bit displacement names the same address as the 32-bit displacement of its product. -/
def Obligations.ScaledDisp8IsItsDisp32 : Prop :=
  ∀ (s : State) (a32 : Bool) (v : VLen) (bc : Bool) (ilen ilen' : Nat) (b : Gpr) (i : Option Index) (d : BitVec 8),
    let n := if bc then bcstBytes else fullBytes v
    let d32 := d.signExtend 32 * BitVec.ofNat 32 n
    effectiveAddress s a32 n ilen (.base b (.d8 d)) = effectiveAddress s a32 n ilen' (.base b (.d32 d32)) ∧
    effectiveAddress s a32 n ilen (.sib b i (.d8 d)) = effectiveAddress s a32 n ilen' (.sib b i (.d32 d32))

/-- Which addresses are canonical, as numbers. Rests on log 8 (DEDUCED from 95_test_vectors T20): 48 significant bits. -/
def Obligations.CanonicalAddressesAsNumbers : Prop :=
  ∀ a : Qword, isCanonical a = true ↔ a.toNat < 2 ^ 47 ∨ 2 ^ 64 - 2 ^ 47 ≤ a.toNat

/-- 20_memory R47, 92 D20: the default `translate`. A listed byte at a canonical address is read; an unlisted one is a page-level
refusal; a non-canonical address is refused as such. -/
def Obligations.DefaultTranslateIsFlat : Prop :=
  ∀ (s : State) (acc : Access) (a : Qword), s.xlat = [] →
    (isCanonical a = false → readByte s acc a = .error .nonCanonical) ∧
    (isCanonical a = true →
      (∀ b, s.mem.read a.toNat = some b → readByte s acc a = .ok b) ∧
      (s.mem.read a.toNat = none → ∃ c, readByte s acc a = .error (.page c)))

/-- 00_scope R7, 20_memory R41: MemWrite, which no instruction calls (R52), stores its bytes at rising addresses and nothing else, and
keeps memory canonical. That addresses wrap at 2^64 (log 8), and that it stores past `translate` and never faults (log 23, DESIGN
CHOICE), is the model's. -/
def Obligations.MemWriteStoresItsBytesOnly : Prop :=
  ∀ (s : State) (a : Qword) (bs : List Byte), bs.length ≤ 2 ^ 64 →
    (∀ k < bs.length, (memWrite s a bs).mem.read (a + BitVec.ofNat 64 k).toNat = some (bs.getD k 0)) ∧
    (∀ c : Nat, (∀ k < bs.length, c ≠ (a + BitVec.ofNat 64 k).toNat) → (memWrite s a bs).mem.read c = s.mem.read c) ∧
    (s.mem.wf = true → (memWrite s a bs).mem.wf = true)

/-- 20_memory R41: a read gives the bytes in little-endian order: bit `8*k + b` of element `j` is bit `b` of the byte at
`addr + 4*j + k`. -/
def Obligations.OperandReadIsLittleEndian : Prop :=
  ∀ (v : VLen) (s : State) (p : Pfx) (m : Masking) (a : MemOperand) (src : List Dword),
    memSource v s p m a = .ok src →
      ∀ j < lanesOf v, laneActive s m j = true → ∀ k < 4, ∀ b < 8,
        ∃ byte, readByte s .read (operandAddress s p (fullBytes v) a + BitVec.ofNat 64 (4 * j + k)) = .ok byte ∧
          (src.getD j 0).getLsbD (8 * k + b) = byte.getLsbD b

/-! ## The conversion of one element -/

/-- 40_vcvttps2qq R91, R92, R93: `cvtt` against exact rational arithmetic. INT_INDEFINITE_64 is the spec's own decision D4; NaN and
infinity as invalid D27; DAZ D11. -/
def Obligations.CvttTruncatesTheRationalValue : Prop :=
  ∀ (x : Dword) (daz : Bool),
    (f32Exp x = 255 → cvtt x daz = { r := Config.intIndefinite64, ie := true, pe := false }) ∧
    (f32Exp x ≠ 255 →
      (-2 ^ 63 ≤ truncate (cvttValue x daz) ∧ truncate (cvttValue x daz) < 2 ^ 63 →
        (cvtt x daz).r.toInt = truncate (cvttValue x daz) ∧ (cvtt x daz).ie = false ∧
          ((cvtt x daz).pe = true ↔ (truncate (cvttValue x daz) : ℚ) ≠ cvttValue x daz)) ∧
      (¬(-2 ^ 63 ≤ truncate (cvttValue x daz) ∧ truncate (cvttValue x daz) < 2 ^ 63) →
        cvtt x daz = { r := Config.intIndefinite64, ie := true, pe := false }))

/-- 40_vcvttps2qq R94, 95_test_vectors section 2.1: what the two signals of one element say. -/
def Obligations.CvttSignalsExcludeEachOther : Prop :=
  ∀ (x : Dword) (daz : Bool),
    ((cvtt x daz).ie = true → (cvtt x daz).r = Config.intIndefinite64 ∧ (cvtt x daz).pe = false) ∧
    (150 ≤ f32Exp x → f32Exp x ≤ 189 → (cvtt x daz).ie = false ∧ (cvtt x daz).pe = false)

/-- 95_test_vectors section 2.1: changing the sign negates the result, where both conversions are valid. -/
def Obligations.CvttOfNegatedIsNegated : Prop :=
  ∀ (x : Dword) (daz : Bool), (cvtt x daz).ie = false → (cvtt (x ^^^ 0x80000000#32) daz).ie = false →
    (cvtt (x ^^^ 0x80000000#32) daz).r = -(cvtt x daz).r

/-- 40_vcvttps2qq R113: with DAZ a denormal no longer signals precision, and nothing else changes. From general knowledge (decision
D11). -/
def Obligations.DazOnlyDropsPrecisionOfDenormals : Prop :=
  ∀ x : Dword, (cvtt x true).r = (cvtt x false).r ∧ (cvtt x true).ie = (cvtt x false).ie ∧
    (f32Exp x = 0 ∧ f32Frac x ≠ 0 → (cvtt x false).pe = true ∧ (cvtt x true).pe = false) ∧
    (¬(f32Exp x = 0 ∧ f32Frac x ≠ 0) → (cvtt x true).pe = (cvtt x false).pe)

/-! ## Completion and results -/

/-- R103, R106, R109: the plain register forms complete, with this effect, whenever the enables hold and every signalled exception is
masked. `dst` may be `src` (R101). -/
def Obligations.RegisterFormsComplete : Prop :=
  ∀ (v : VLen) (p : Pfx) (m : Masking) (dst src : VReg) (s : State), Enabled v s →
    AllMasked (regForm v p m dst src) s (elem32 (readVec s src)) →
      ∃ t, exec (regForm v p m dst src) s = .next t ∧
        Completed (regForm v p m dst src) s (elem32 (readVec s src)) t

/-- R104, R107, R110: the full-memory forms complete, with this effect, when the enables hold, the accessed bytes are readable,
alignment checking passes and every signalled exception is masked. -/
def Obligations.MemoryFormsComplete : Prop :=
  ∀ (v : VLen) (p : Pfx) (m : Masking) (dst : VReg) (a : MemOperand) (s : State) (b : Nat → Byte), Enabled v s →
    Readable s (operandAddress s p (fullBytes v) a) (fullBytes v)
      (fun k => !s.params.faultSuppression || laneActive s m (k / 4)) b →
    AlignmentPasses s (operandAddress s p (fullBytes v) a) (fullBytes v)
      (fun k => !s.params.faultSuppression || laneActive s m (k / 4)) →
    AllMasked (memForm v p m dst a) s (dwordOf b) →
      ∃ t, exec (memForm v p m dst a) s = .next t ∧ Completed (memForm v p m dst a) s (dwordOf b) t

/-- R105, R108, R111: the broadcast forms complete, with this effect: the one element is every lane's. -/
def Obligations.BroadcastFormsComplete : Prop :=
  ∀ (v : VLen) (p : Pfx) (m : Masking) (dst : VReg) (a : MemOperand) (s : State) (b : Nat → Byte), Enabled v s →
    Readable s (operandAddress s p 4 a) 4 (fun _ => !s.params.faultSuppression || someActive s m v) b →
    AlignmentPasses s (operandAddress s p 4 a) 4 (fun _ => !s.params.faultSuppression || someActive s m v) →
    AllMasked (bcstForm v p m dst a) s (fun _ => dwordOf b 0) →
      ∃ t, exec (bcstForm v p m dst a) s = .next t ∧ Completed (bcstForm v p m dst a) s (fun _ => dwordOf b 0) t

/-- R112, R99: the SAE form completes whenever the enables hold, whatever the masks, and leaves MXCSR as it was. SAE is the spec's own
decision D9. -/
def Obligations.SaeFormCompletes : Prop :=
  ∀ (p : Pfx) (m : Masking) (dst src : VReg) (s : State), Enabled .v512 s →
    ∃ t, exec (.sae512 p m dst src) s = .next t ∧
      Completed (.sae512 p m dst src) s (elem32 (readVec s src)) t ∧ t.mxcsr = s.mxcsr

/-- 40_vcvttps2qq R96 for every form: lane activity, the new elements, the zeroed upper bits, and no signal of an inactive lane.
FlagsWritten also states R97 (flags OR-ed into MXCSR bits 0 and 5, decision D26) and R99 (SAE writes no flag, decision D9), which the
spec takes from general knowledge (log 15, PRESUMED). -/
def Obligations.NewDestinationIsLaneByLane : Prop :=
  ∀ (i : Instr) (s t : State), exec i s = .next t →
    ∃ src, sourceOf i s = .ok src ∧ LanesWritten i s (fun j => src.getD j 0) t ∧
      FlagsWritten i s (fun j => src.getD j 0) t

/-- 40_vcvttps2qq R116: the frame of every form. -/
def Obligations.InstructionWritesNothingElse : Prop :=
  ∀ (i : Instr) (s t : State), exec i s = .next t →
    (t.mem = s.mem ∧ (∀ a, byteAt t a = byteAt s a)) ∧ t.gpr = s.gpr ∧ t.k = s.k ∧ t.rflags = s.rflags ∧
    (∀ r, r ≠ instrDst i → readVec t r = readVec s r) ∧
    (∀ b, b ≠ 0 → b ≠ 5 → t.mxcsr.getLsbD b = s.mxcsr.getLsbD b) ∧
    (t.csBase = s.csBase ∧ t.fsBase = s.fsBase ∧ t.gsBase = s.gsBase ∧ t.cr0 = s.cr0 ∧ t.cr4 = s.cr4 ∧ t.xcr0 = s.xcr0 ∧
      t.cpl = s.cpl ∧ t.mode = s.mode ∧ t.cpuid7Ebx = s.cpuid7Ebx ∧ t.xlat = s.xlat ∧ t.params = s.params ∧
      t.draws = s.draws)

/-- 40_vcvttps2qq R112: the SAE form gives the register that the plain form gives with IM = PM = 1; only MXCSR differs. -/
def Obligations.SaeGivesTheRegisterOfMaskedReg512 : Prop :=
  ∀ (p : Pfx) (m : Masking) (dst src : VReg) (s t u : State),
    exec (.sae512 p m dst src) s = .next t →
    exec (.reg512 p m dst src) (writeMxcsr s (s.mxcsr ||| 0x1080#32)) = .next u →
      t.zmm = u.zmm ∧ t.pc = u.pc ∧ t.mxcsr = s.mxcsr

/-! ## What cannot influence a completed result -/

/-- 10_state R22, 40_vcvttps2qq R96: of a source register only the elements of active lanes matter. -/
def Obligations.OnlyActiveSourceElementsMatter : Prop :=
  ∀ (v : VLen) (p : Pfx) (m : Masking) (dst src : VReg) (s t : State) (x : Vec), dst ≠ src →
    (∀ j < lanesOf v, laneActive s m j = true → elem32 x j = elem32 (readVec s src) j) →
    (exec (regForm v p m dst src) s = .next t →
      exec (regForm v p m dst src) (writeVec s src x) = .next (writeVec t src x)) ∧
    (v = .v512 → exec (.sae512 p m dst src) s = .next t →
      exec (.sae512 p m dst src) (writeVec s src x) = .next (writeVec t src x))

/-- 20_memory R49: the bytes of inactive lanes of a memory source cannot affect the result. -/
def Obligations.InactiveMemoryElementsCannotMatter : Prop :=
  ∀ (v : VLen) (p : Pfx) (m : Masking) (dst : VReg) (a : MemOperand) (s t : State) (mem' : Memory),
    exec (memForm v p m dst a) s = .next t →
    (∀ k < fullBytes v,
      (laneActive s m (k / 4) = true →
        readByte { s with mem := mem' } .read (operandAddress s p (fullBytes v) a + BitVec.ofNat 64 k) =
          readByte s .read (operandAddress s p (fullBytes v) a + BitVec.ofNat 64 k)) ∧
      (laneActive s m (k / 4) = false →
        ∃ b, readByte { s with mem := mem' } .read (operandAddress s p (fullBytes v) a + BitVec.ofNat 64 k) = .ok b)) →
    exec (memForm v p m dst a) { s with mem := mem' } = .next { t with mem := mem' }

/-- 10_state R23: of an opmask register only bits KL-1:0 matter. -/
def Obligations.MaskBitsAboveLanesCannotMatter : Prop :=
  ∀ (i : Instr) (s t : State) (r : KReg) (y : Qword),
    (∀ j < lanesOf (instrVLen i), y.getLsbD j = (readMask s r).getLsbD j) → exec i s = .next t →
      exec i { s with k := s.k.set r y } = .next { t with k := t.k.set r y }

/-- 10_state R24, 40_vcvttps2qq R99, R113: of MXCSR a completed instruction reads IM, PM and DAZ only, and the SAE form DAZ only.
RC and FTZ are from general knowledge (decision D11). -/
def Obligations.OnlyMasksAndDazOfMxcsrAreRead : Prop :=
  ∀ (i : Instr) (s t : State) (x : Dword), mxDAZ x = mxDAZ s.mxcsr →
    (instrSae i = false → mxIM x = mxIM s.mxcsr ∧ mxPM x = mxPM s.mxcsr) → exec i s = .next t →
      ∃ u, exec i (writeMxcsr s x) = .next u ∧ u.zmm = t.zmm ∧ u.pc = t.pc ∧
        (∀ b, b ≠ 0 → b ≠ 5 → u.mxcsr.getLsbD b = x.getLsbD b)

/-- 60_exceptions R134: the privilege level cannot matter while alignment checking is off. From general knowledge. -/
def Obligations.PrivilegeLevelCannotMatter : Prop :=
  ∀ (i : Instr) (s t : State) (c : BitVec 2), alignmentChecking s = false →
    alignmentChecking { s with cpl := c } = false → exec i s = .next t →
      exec i { s with cpl := c } = .next { t with cpl := c }

/-- 40_vcvttps2qq R115: a completed result depends on no free value: it is the same for every draw number. -/
def Obligations.CompletedResultUsesNoFreeValue : Prop :=
  ∀ (i : Instr) (s t : State) (n : Nat), exec i s = .next t → exec i { s with draws := n } = .next { t with draws := n }

/-! ## Exceptions -/

/-- 40_vcvttps2qq R98, 60_exceptions R128: an unmasked signal raises #XM, or #UD where CR4.OSXMMEXCPT = 0; nothing is written, but IE
and PE may rise (a free value, whatever it is). The spec's own decision D10. -/
def Obligations.UnmaskedSignalRaisesSimdException : Prop :=
  ∀ (i : Instr) (s : State) (src : List Dword), instrSae i = false → Enabled (instrVLen i) s → sourceOf i s = .ok src →
    ¬AllMasked i s (fun j => src.getD j 0) →
      ∃ x : Dword, (∀ b, b ≠ 0 → b ≠ 5 → x.getLsbD b = s.mxcsr.getLsbD b) ∧
        (∀ b, s.mxcsr.getLsbD b = true → x.getLsbD b = true) ∧
        (osxmmexcpt s = true → exec i s = .fault (.xm { s with mxcsr := x, draws := s.draws + 1 })) ∧
        (osxmmexcpt s = false → exec i s = .fault (.ud .simdFp { s with mxcsr := x, draws := s.draws + 1 }))

/-- 60_exceptions R126, R129: an accessed byte at a non-canonical address raises #SS(0) in the stack segment and #GP(0) elsewhere,
before any other operand fault and before any conversion. From general knowledge (decision D20). Whether an override without a base
counts for the segment is the model's own parameter (log 25). -/
def Obligations.NonCanonicalOperandRaisesSsOrGp : Prop :=
  ∀ (v : VLen) (p : Pfx) (m : Masking) (dst : VReg) (a : MemOperand) (s : State) (k : Nat), Enabled v s →
    (k < fullBytes v → (s.params.faultSuppression = false ∨ laneActive s m (k / 4) = true) →
      readByte s .read (operandAddress s p (fullBytes v) a + BitVec.ofNat 64 k) = .error .nonCanonical →
      exec (memForm v p m dst a) s = .fault (if usesStackSegment s p a then .ss s else .gp s)) ∧
    (k < 4 → (s.params.faultSuppression = false ∨ someActive s m v = true) →
      readByte s .read (operandAddress s p 4 a + BitVec.ofNat 64 k) = .error .nonCanonical →
      exec (bcstForm v p m dst a) s = .fault (if usesStackSegment s p a then .ss s else .gp s))

/-- Which operands are in the stack segment, under both readings of an override without a base: 60_exceptions R126, where it counts,
and 30_encoding R81 with decision D25, where it is ignored. From general knowledge; the choice is the model's own parameter (log 25). -/
def Obligations.StackSegmentByBaseOrPrefix : Prop :=
  ∀ (s : State) (p : Pfx) (a : MemOperand),
    (s.params.segOverrideIgnored = false → (usesStackSegment s p a = true ↔
      p.seg = some .ss ∨
        (p.seg = none ∧ ∃ r : Gpr, (r = 4 ∨ r = 5) ∧ ((∃ d, a = .base r d) ∨ ∃ i d, a = .sib r i d)))) ∧
    (s.params.segOverrideIgnored = true → (usesStackSegment s p a = true ↔
      (p.seg ≠ some .fs ∧ p.seg ≠ some .gs) ∧
        ∃ r : Gpr, (r = 4 ∨ r = 5) ∧ ((∃ d, a = .base r d) ∨ ∃ i d, a = .sib r i d)))

/-- 20_memory R47, 60_exceptions R126: an accessed byte that paging refuses raises #PF, with the code of a refused byte and an address
among the accessed ones (both free, log 5); nothing is changed but the draw number. -/
def Obligations.RefusedPageRaisesPf : Prop :=
  ∀ (v : VLen) (p : Pfx) (m : Masking) (dst : VReg) (a : MemOperand) (s : State) (k : Nat) (c : Dword), Enabled v s →
    (k < fullBytes v → (s.params.faultSuppression = false ∨ laneActive s m (k / 4) = true) →
      readByte s .read (operandAddress s p (fullBytes v) a + BitVec.ofNat 64 k) = .error (.page c) →
      (∀ j < fullBytes v, (s.params.faultSuppression = false ∨ laneActive s m (j / 4) = true) →
        readByte s .read (operandAddress s p (fullBytes v) a + BitVec.ofNat 64 j) ≠ .error .nonCanonical) →
      ∃ j j' c', j < fullBytes v ∧ (s.params.faultSuppression = false ∨ laneActive s m (j / 4) = true) ∧
        j' < fullBytes v ∧ (s.params.faultSuppression = false ∨ laneActive s m (j' / 4) = true) ∧
        readByte s .read (operandAddress s p (fullBytes v) a + BitVec.ofNat 64 j') = .error (.page c') ∧
        exec (memForm v p m dst a) s =
          .fault (.pf (operandAddress s p (fullBytes v) a + BitVec.ofNat 64 j) c' { s with draws := s.draws + 1 })) ∧
    (k < 4 → (s.params.faultSuppression = false ∨ someActive s m v = true) →
      readByte s .read (operandAddress s p 4 a + BitVec.ofNat 64 k) = .error (.page c) →
      (∀ j < 4, readByte s .read (operandAddress s p 4 a + BitVec.ofNat 64 j) ≠ .error .nonCanonical) →
      ∃ j j' c', j < 4 ∧ j' < 4 ∧
        readByte s .read (operandAddress s p 4 a + BitVec.ofNat 64 j') = .error (.page c') ∧
        exec (bcstForm v p m dst a) s =
          .fault (.pf (operandAddress s p 4 a + BitVec.ofNat 64 j) c' { s with draws := s.draws + 1 }))

/-- 60_exceptions R127: a misaligned readable operand under alignment checking. #AC(0) where the reconstruction is taken, a refusal
where it is not (decision D24, U11). The two parameters are the model's own (log 9, log 10). -/
def Obligations.MisalignedOperandUnderAlignmentChecking : Prop :=
  ∀ (v : VLen) (p : Pfx) (m : Masking) (dst : VReg) (a : MemOperand) (s : State) (b : Nat → Byte) (k : Nat),
    Enabled v s → alignmentChecking s = true →
    (Readable s (operandAddress s p (fullBytes v) a) (fullBytes v)
        (fun k => !s.params.faultSuppression || laneActive s m (k / 4)) b →
      k < fullBytes v → (s.params.faultSuppression = false ∨ laneActive s m (k / 4) = true) →
      (operandAddress s p (fullBytes v) a).toNat % fullBytes v ≠ 0 →
      (s.params.reconstructed = true → v = .v128 ∨ s.params.acWide = true →
        exec (memForm v p m dst a) s = .fault (.ac s)) ∧
      (s.params.reconstructed = false → exec (memForm v p m dst a) s = .refused .alignmentChecked)) ∧
    (Readable s (operandAddress s p 4 a) 4 (fun _ => true) b →
      (s.params.faultSuppression = false ∨ someActive s m v = true) →
      (operandAddress s p 4 a).toNat % 4 ≠ 0 →
      (s.params.reconstructed = true → exec (bcstForm v p m dst a) s = .fault (.ac s)) ∧
      (s.params.reconstructed = false → exec (bcstForm v p m dst a) s = .refused .alignmentChecked))

/-- 60_exceptions R121, decision D22: a form raises #UD without AVX512DQ, and without AVX512VL at 128 and 256 bits, whatever else
holds. That it does so also where other premises fail, for which D22 refuses, is the model's order of the checks, a DESIGN CHOICE
(log 21), under both values of the model's own parameter (log 9). -/
def Obligations.MissingCpuidFlagRaisesUd : Prop :=
  ∀ (i : Instr) (s : State), s.mode = .long64 →
    hasAvx512dq s = false ∨ (instrVLen i ≠ .v512 ∧ hasAvx512vl s = false) → exec i s = .fault (.ud .cpuid s)

/-- 60_exceptions R121, R122, R129, decision D22: the other enable conditions. Refused, or (log 9, the model's own parameter) #UD
before #NM, before any operand is read. The order among several failed premises is the model's DESIGN CHOICE (log 21). -/
def Obligations.FailedEnableIsUdThenNmOrRefused : Prop :=
  ∀ (i : Instr) (s : State), s.mode = .long64 → hasAvx512dq s = true → (instrVLen i ≠ .v512 → hasAvx512vl s = true) →
    (hasAvx512f s = false ∨ osxsave s = false ∨ xcr0Enabled s = false →
      (s.params.reconstructed = true → exec i s = .fault (.ud .enable s)) ∧
      (s.params.reconstructed = false → ∃ q, exec i s = .refused (.launchPremise q))) ∧
    (hasAvx512f s = true → osxsave s = true → xcr0Enabled s = true → taskSwitched s = true →
      (s.params.reconstructed = true → exec i s = .fault (.nm s)) ∧
      (s.params.reconstructed = false → exec i s = .refused (.launchPremise .taskSwitched)))

/-- 30_encoding R75, decision D1: outside 64-bit mode a step refuses, and so does every form. -/
def Obligations.OtherModesAreRefused : Prop :=
  ∀ s : State, s.mode ≠ .long64 →
    step s = .refused (.mode s.mode) ∧ ∀ i, exec i s = .refused (.mode s.mode)

/-- R103, R106, R109, R112: a register form raises no memory fault, and the SAE form no SIMD floating-point exception. -/
def Obligations.RegisterFormsRaiseNoMemoryFault : Prop :=
  ∀ (v : VLen) (p : Pfx) (m : Masking) (dst src : VReg) (s : State) (f : Fault),
    (exec (regForm v p m dst src) s = .fault f → vectorOf f = 6 ∨ vectorOf f = 7 ∨ vectorOf f = 19) ∧
    (exec (.sae512 p m dst src) s = .fault f →
      (vectorOf f = 6 ∨ vectorOf f = 7) ∧ ∀ a, f ≠ .ud .simdFp a)

/-- 60_exceptions R120, R130, 40_vcvttps2qq R98: every fault is precise. The recorded state is the state before the step, but for
flags that may rise at a SIMD floating-point fault and the model's draw number. -/
def Obligations.EveryFaultIsPrecise : Prop :=
  ∀ (s : State) (f : Fault), step s = .fault f →
    stateAfter f = { s with mxcsr := (stateAfter f).mxcsr, draws := (stateAfter f).draws } ∧
    (∀ b, b ≠ 0 → b ≠ 5 → (stateAfter f).mxcsr.getLsbD b = s.mxcsr.getLsbD b) ∧
    (∀ b, s.mxcsr.getLsbD b = true → (stateAfter f).mxcsr.getLsbD b = true) ∧
    (vectorOf f ≠ 19 → (∀ a, f ≠ .ud .simdFp a) → (stateAfter f).mxcsr = s.mxcsr)

/-! ## Steps -/

/-- 30_encoding R78: a step runs the instruction that the bytes at pc decode to. (The step adds only the checks of 64-bit mode and
of a pc that does not reach 2^64.) -/
def Obligations.StepRunsTheDecodedInstruction : Prop :=
  ∀ (s : State) (i : Instr) (rest : List Byte), s.mode = .long64 → decode (fetchWindow s).1 = .ok i rest →
    s.pc.toNat + instrLength i < 2 ^ 64 → step s = exec i s

/-- 30_encoding R78, 20_memory R40: the same from memory: the bytes of a well-formed instruction, readable at pc, are what a step
runs. -/
def Obligations.StepRunsTheBytesInMemory : Prop :=
  ∀ (s : State) (i : Instr), s.mode = .long64 → wellFormed i = true → s.pc.toNat + instrLength i < 2 ^ 64 →
    (∀ k < instrLength i, readByte s .fetch (s.pc + BitVec.ofNat 64 k) = .ok ((encode i).getD k 0)) →
      step s = exec i s

/-- 10_state R26 leaves the wrap of pc + ilen past 2^64 undefined; that an instruction is refused there, and already where it reaches
2^64 exactly, is the model's DESIGN CHOICE (log 12). 60_exceptions R126: instruction bytes that cannot be read are refused, or they
fault as a read does, by the model's own parameter (log 9, log 11). -/
def Obligations.FetchLimitsAreRefused : Prop :=
  (∀ (s : State) (i : Instr) (rest : List Byte), s.mode = .long64 → decode (fetchWindow s).1 = .ok i rest →
    2 ^ 64 ≤ s.pc.toNat + instrLength i → step s = .refused .pcWraps) ∧
  (∀ (s : State) (d : Deny), s.mode = .long64 → decode (fetchWindow s).1 = .reject .short → (fetchWindow s).2 = some d →
    (s.params.reconstructed = false → step s = .refused .fetchUnreadable) ∧
    (s.params.reconstructed = true → d = .nonCanonical → step s = .fault (.gp s)) ∧
    (s.params.reconstructed = true → ∀ c, d = .page c →
      ∃ k < 15, step s = .fault (.pf (s.pc + BitVec.ofNat 64 k) c { s with draws := s.draws + 1 })))

/-- 70_reset R151 f, R156 (log 13): an instruction placed at pc by the host is what the very next step runs. -/
def Obligations.PlacedInstructionIsRun : Prop :=
  ∀ (s : State) (i : Instr), wellFormed i = true → s.pc.toNat + 15 < 2 ^ 64 →
    (∀ k < 15, isCanonical (s.pc + BitVec.ofNat 64 k) = true) →
      step (s.withFetchWord (8 * instrLength i) (bytesWord (encode i))) =
        exec i (s.withFetchWord (8 * instrLength i) (bytesWord (encode i)))

/-- 40_vcvttps2qq R102, 10_state R26: a step that goes on moves pc forward by the length of the instruction, 6 to 13 bytes, without
passing 2^64. -/
def Obligations.StepAdvancesPcByTheLength : Prop :=
  ∀ s t : State, step s = .next t →
    ∃ i rest, decode (fetchWindow s).1 = .ok i rest ∧ t.pc.toNat = s.pc.toNat + instrLength i ∧
      6 ≤ instrLength i ∧ instrLength i ≤ 13

/-- 00_scope R12, 10_state R24: a step changes at most one vector register, sets flags but clears none, and moves pc; everything else
stays. -/
def Obligations.StepChangesOneRegisterFlagsAndPc : Prop :=
  ∀ s t : State, step s = .next t →
    t = { s with zmm := t.zmm, mxcsr := t.mxcsr, pc := t.pc } ∧
    (∃ dst : VReg, ∀ r, r ≠ dst → readVec t r = readVec s r) ∧
    (∀ b, b ≠ 0 → b ≠ 5 → t.mxcsr.getLsbD b = s.mxcsr.getLsbD b) ∧
    (∀ b, s.mxcsr.getLsbD b = true → t.mxcsr.getLsbD b = true)

/-- Every step keeps memory canonical and the reserved bits of MXCSR 0 (10_state R24). -/
def Obligations.EveryStepKeepsTheStateInvariant : Prop :=
  ∀ s t : State, StateInv s → step s = .next t → StateInv t

/-- The state invariant holds after reset. -/
def Obligations.StateInvariantHoldsAtReset : Prop := StateInv State.reset

/-- 70_reset R151: the launch premises hold of every later state of a run: no instruction in scope undoes them. -/
def Obligations.EveryStepKeepsTheLaunchPremises : Prop :=
  ∀ s t : State, step s = .next t → (Launched s → Launched t) ∧ ∀ v, Enabled v s → Enabled v t

/-- 70_reset R151 a, b (log 13): the launch establishes its premises from any state, and every form is enabled where the CPUID flags
are there. -/
def Obligations.LaunchEnablesEveryForm : Prop :=
  ∀ s : State, hasAvx512f s = true → hasAvx512dq s = true → hasAvx512vl s = true → ∀ v, Enabled v (launch s)

/-- 70_reset R150: the state after reset. The values are the spec's own, from general knowledge; memory, the parameters and the draw
number are the model's choice (log 1, log 2). -/
def Obligations.ResetValues : Prop :=
  (∀ r : VReg, readVec State.reset r = 0) ∧ (∀ r : KReg, readMask State.reset r = 0) ∧
  (∀ r : Gpr, r ≠ 2 → readGpr State.reset r = 0) ∧ State.reset.mxcsr = 0x1F80#32 ∧ State.reset.pc = 0xFFF0#64 ∧
  State.reset.csBase = 0xFFFF0000#64 ∧ State.reset.rflags = 2#64 ∧ State.reset.cr0 = 0x60000010#64 ∧
  State.reset.cr4 = 0#64 ∧ State.reset.xcr0 = 1#64 ∧ State.reset.fsBase = 0#64 ∧ State.reset.gsBase = 0#64 ∧
  State.reset.cpl = 0#2 ∧ State.reset.mode = .real

/-- 70_reset R150: RESET leaves memory alone; INIT leaves the vector registers, the opmask registers and MXCSR alone. That INIT also
keeps memory and gives pc and mode their RESET values is the model's DESIGN CHOICE (log 24). -/
def Obligations.InitKeepsVectorState : Prop :=
  ∀ s : State, (resetEvent s).mem = s.mem ∧ (initEvent s).mem = s.mem ∧ (initEvent s).zmm = s.zmm ∧
    (initEvent s).k = s.k ∧ (initEvent s).mxcsr = s.mxcsr ∧ (initEvent s).pc = State.reset.pc ∧
    (initEvent s).mode = State.reset.mode

/-! ## Prefixes and memory, over all bytes and all outcomes -/

/-- 30_encoding R72, R78: what stands before the byte 0x62 is a legal spelling of the prefixes, and every legal spelling is read. From
general knowledge (decision D25); that repeated prefixes are refused is U17 (log 18). -/
def Obligations.PrefixesAreReadFromTheirBytes : Prop :=
  ∀ (bs : List Byte) (p : Pfx) (tail : List Byte),
    scanPfx {} bs = .ok (p, tail) ↔ ∃ pre, PfxBytes p pre ∧ bs = pre ++ 0x62 :: tail

/-- 20_memory R52: no step writes memory, whether it goes on or faults. -/
def Obligations.NoStepWritesMemory : Prop :=
  ∀ s : State, (∀ t, step s = .next t → t.mem = s.mem ∧ ∀ a, byteAt t a = byteAt s a) ∧
    ∀ f, step s = .fault f → (stateAfter f).mem = s.mem ∧ ∀ a, byteAt (stateAfter f) a = byteAt s a

/-- 30_encoding R81: which of the segment overrides other than FS and GS is present does not matter. Where the override is ignored
(the model's own parameter, log 25) every answer is the same; where 60_exceptions R126 is followed, every completed result. From
general knowledge (decision D25). -/
def Obligations.OverridesWithoutBaseAreInterchangeable : Prop :=
  ∀ (v : VLen) (m : Masking) (dst src : VReg) (a : MemOperand) (a32 : Bool) (s : State) (g g' : Seg),
    g ≠ .fs → g ≠ .gs → g' ≠ .fs → g' ≠ .gs →
      (exec (regForm v ⟨some g, a32⟩ m dst src) s = exec (regForm v ⟨some g', a32⟩ m dst src) s ∧
        exec (.sae512 ⟨some g, a32⟩ m dst src) s = exec (.sae512 ⟨some g', a32⟩ m dst src) s) ∧
      (s.params.segOverrideIgnored = true →
        exec (memForm v ⟨some g, a32⟩ m dst a) s = exec (memForm v ⟨some g', a32⟩ m dst a) s ∧
        exec (bcstForm v ⟨some g, a32⟩ m dst a) s = exec (bcstForm v ⟨some g', a32⟩ m dst a) s) ∧
      ∀ t : State,
        (exec (memForm v ⟨some g, a32⟩ m dst a) s = .next t → exec (memForm v ⟨some g', a32⟩ m dst a) s = .next t) ∧
        (exec (bcstForm v ⟨some g, a32⟩ m dst a) s = .next t → exec (bcstForm v ⟨some g', a32⟩ m dst a) s = .next t)
end

