-- ==== Sys2Proof/Laws/Decode.lean ====
section
/-! SUPPORT. The decoder and the encoder part by part: the prefixes, the payload bytes, ModRM, SIB, displacements, the forms
(spec 30_encoding R60 to R72, R78). -/

namespace Sys2Proof

/-! ## Prefixes -/

/-- The prefixes that the encoder writes are read back. -/
theorem scanPfx_encodePfx (p : Pfx) (bs : List Byte) : scanPfx {} (encodePfx p ++ 0x62 :: bs) = .ok (p, bs) := by
  obtain ⟨seg, a32⟩ := p
  rcases seg with _ | g
  · cases a32 <;> rfl
  · cases g <;> cases a32 <;> rfl

/-- Legal prefixes in either order are read; the scan goes on after them. -/
theorem scanPfx_pfxBytes {p : Pfx} {pre : List Byte} (h : Machine.PfxBytes p pre) (bs : List Byte) :
    scanPfx {} (pre ++ bs) = scanPfx p bs := by
  rcases h with rfl | ⟨g, rfl, rfl⟩
  · obtain ⟨seg, a32⟩ := p
    rcases seg with _ | g
    · cases a32 <;> rfl
    · cases g <;> cases a32 <;> rfl
  · cases g <;> rfl

/-- Legal prefixes and the byte 0x62: the bytes after it decide. -/
theorem decode_pfxBytes {p : Pfx} {pre : List Byte} (h : Machine.PfxBytes p pre) (bs : List Byte) :
    decode (pre ++ 0x62 :: bs) = decodeEvex p bs := by
  rw [decode, scanPfx_pfxBytes h]; rfl

/-- The bytes after the prefixes decide. -/
theorem decode_encodePfx (p : Pfx) (bs : List Byte) : decode (encodePfx p ++ 0x62 :: bs) = decodeEvex p bs := by
  rw [decode, scanPfx_encodePfx]

/-- After the prefixes of the encoder, a byte that is neither 0x62 nor an allowed prefix is rejected by its name. -/
theorem scanPfx_encodePfx_bad (p : Pfx) {b : Byte} (bs : List Byte) (h62 : b ≠ 0x62) (hseg : segOfByte b = none)
    (h67 : b ≠ 0x67) : scanPfx {} (encodePfx p ++ b :: bs) = .error (rejectOfByte b) := by
  have key : ∀ q : Pfx, scanPfx q (b :: bs) = .error (rejectOfByte b) := fun q => by
    rw [scanPfx, if_neg h62, hseg]; exact if_neg h67
  obtain ⟨seg, a32⟩ := p
  rcases seg with _ | g
  · cases a32
    · exact key _
    · exact key _
  · cases g <;> cases a32 <;> exact key _

theorem withVvvv_cons_ne {b : Byte} (hb : ¬b = 0x62) (v : BitVec 4) (bs : List Byte) :
    withVvvv v (b :: bs) = b :: withVvvv v bs := by
  rw [withVvvv.eq_def]; exact if_neg hb

theorem withVvvv_evex (v : BitVec 4) (p0 p1 : Byte) (bs : List Byte) :
    withVvvv v (0x62 :: p0 :: p1 :: bs) = 0x62 :: p0 :: (p1.extractLsb' 7 1 ++ v ++ p1.extractLsb' 0 3) :: bs := rfl

/-- What the prefixes before the byte 0x62 are: bytes that are read the same way whatever follows. -/
theorem scanPfx_ok {q p : Pfx} {bs tail : List Byte} (h : scanPfx q bs = .ok (p, tail)) :
    ∃ pre, bs = pre ++ 0x62 :: tail ∧ pre.length + Machine.pfxLength q = Machine.pfxLength p ∧
      (∀ tail', scanPfx q (pre ++ 0x62 :: tail') = .ok (p, tail')) ∧
      ∀ (v : BitVec 4) (tail' : List Byte), withVvvv v (pre ++ 0x62 :: tail') = pre ++ withVvvv v (0x62 :: tail') := by
  induction bs generalizing q with
  | nil => cases h
  | cons b bs ih =>
    unfold scanPfx at h
    by_cases hb : b = 0x62
    · rw [if_pos hb] at h
      cases h; subst hb
      exact ⟨[], rfl, by simp, fun _ => rfl, fun _ _ => rfl⟩
    · rw [if_neg hb] at h
      cases hs : segOfByte b with
      | some g =>
        simp only [hs] at h
        split_ifs at h with hq
        obtain ⟨pre, h1, h2, h3, h4⟩ := ih h
        refine ⟨b :: pre, by rw [h1]; rfl, ?_, fun t => ?_, fun v t => ?_⟩
        · rw [← h2]; simp [Machine.pfxLength, hq]; omega
        · rw [List.cons_append, scanPfx, if_neg hb]; simp only [hs, if_neg hq]; exact h3 t
        · rw [List.cons_append, withVvvv_cons_ne hb, h4]; rfl
      | none =>
        simp only [hs] at h
        split_ifs at h with h67 hq
        obtain ⟨pre, h1, h2, h3, h4⟩ := ih h
        refine ⟨b :: pre, by rw [h1]; rfl, ?_, fun t => ?_, fun v t => ?_⟩
        · rw [← h2]; simp [Machine.pfxLength, hq]; omega
        · rw [List.cons_append, scanPfx, if_neg hb]; simp only [hs, if_pos h67, if_neg hq]; exact h3 t
        · rw [List.cons_append, withVvvv_cons_ne hb, h4]; rfl

/-! ## The payload (30_encoding R61 to R64) -/

theorem p0Byte_fields (r x b r' : Bool) :
    (p0Byte r x b r').getLsbD 3 = false ∧ (p0Byte r x b r').extractLsb' 0 3 = 1#3 ∧ (p0Byte r x b r').getLsbD 7 = !r ∧
      (p0Byte r x b r').getLsbD 6 = !x ∧ (p0Byte r x b r').getLsbD 5 = !b ∧ (p0Byte r x b r').getLsbD 4 = !r' := by
  revert r x b r'; decide

theorem p1Byte_fields (vvvv : BitVec 4) :
    (p1Byte vvvv).getLsbD 7 = false ∧ (p1Byte vvvv).getLsbD 2 = true ∧ (p1Byte vvvv).extractLsb' 0 2 = 1#2 ∧
      (p1Byte vvvv).extractLsb' 3 4 = vvvv := by
  revert vvvv; decide

theorem p2Byte_fields (z : Bool) (ll : BitVec 2) (bc : Bool) (aaa : KReg) :
    (p2Byte z ll bc aaa).getLsbD 3 = true ∧ (p2Byte z ll bc aaa).getLsbD 7 = z ∧
      (p2Byte z ll bc aaa).extractLsb' 0 3 = BitVec.ofFin aaa ∧ (p2Byte z ll bc aaa).extractLsb' 5 2 = ll ∧
      (p2Byte z ll bc aaa).getLsbD 4 = bc := by
  revert z ll bc aaa; decide

theorem masking_ok_bits {z : Bool} {aaa : KReg} (h : Masking.ok ⟨aaa, z⟩ = true) :
    (z && (BitVec.ofFin aaa : BitVec 3) == 0#3) = false := by
  revert z aaa; decide

/-- The payload that the encoder writes is read back. -/
theorem readPayload_bytes (r x b r' : Bool) (vvvv : BitVec 4) (z : Bool) (ll : BitVec 2) (bc : Bool) (aaa : KReg)
    (h : Masking.ok ⟨aaa, z⟩ = true) :
    readPayload (p0Byte r x b r') (p1Byte vvvv) (p2Byte z ll bc aaa) 0x7A =
      .ok { r := r, x := x, b := b, r' := r', vvvv := vvvv, z := z, ll := ll, bc := bc, aaa := BitVec.ofFin aaa } := by
  obtain ⟨a1, a2, a3, a4, a5, a6⟩ := p0Byte_fields r x b r'
  obtain ⟨b1, b2, b3, b4⟩ := p1Byte_fields vvvv
  obtain ⟨c1, c2, c3, c4, c5⟩ := p2Byte_fields z ll bc aaa
  have hz : (z && (BitVec.ofFin aaa : BitVec 3) == 0#3) = false := masking_ok_bits h
  simp only [readPayload, a1, a2, a3, a4, a5, a6, b1, b2, b3, b4, c1, c2, c3, c4, c5, hz]
  simp

/-- Everything that an accepted payload says of its bytes. -/
theorem readPayload_ok {p0 p1 p2 opcode : Byte} {e : Payload} (h : readPayload p0 p1 p2 opcode = .ok e) :
    (p0.getLsbD 3 = false ∧ p0.extractLsb' 0 3 = 1#3 ∧ p1.getLsbD 7 = false ∧ p1.getLsbD 2 = true ∧
      p1.extractLsb' 0 2 = 1#2 ∧ opcode = 0x7A ∧ p2.getLsbD 3 = true ∧
      ¬(p2.getLsbD 7 = true ∧ p2.extractLsb' 0 3 = 0#3)) ∧
    e = { r := !p0.getLsbD 7, x := !p0.getLsbD 6, b := !p0.getLsbD 5, r' := !p0.getLsbD 4
          vvvv := p1.extractLsb' 3 4
          z := p2.getLsbD 7, ll := p2.extractLsb' 5 2, bc := p2.getLsbD 4, aaa := p2.extractLsb' 0 3 } := by
  unfold readPayload at h
  split_ifs at h with h1 h2 h3 h4 h5 h6 h7 h8
  cases h
  refine ⟨⟨?_, ?_, ?_, ?_, ?_, ?_, ?_, ?_⟩, rfl⟩ <;> simp_all

/-! ## Register numbers, ModRM, displacements -/

theorem vregOf_bits (d : VReg) : vregOf (bit4 d) (bit3 d) (low3 d) = d := by revert d; decide

theorem gprOf_bits (r : Gpr) : gprOf (bit3 r) (low3 r) = r := by revert r; decide

/-- The number that the bits of a vector register field spell (30_encoding R66). -/
theorem vregOf_val (hi mid : Bool) (lo : BitVec 3) :
    (vregOf hi mid lo).val = 16 * (if hi then 1 else 0) + 8 * (if mid then 1 else 0) + lo.toNat := by
  revert hi mid lo; decide

/-- The number that the bits of a general register field spell (30_encoding R66). -/
theorem gprOf_val (hi : Bool) (lo : BitVec 3) : (gprOf hi lo).val = 8 * (if hi then 1 else 0) + lo.toNat := by
  revert hi lo; decide

set_option maxRecDepth 8000 in
theorem modrmByte_fields (mod : BitVec 2) (reg rm : BitVec 3) :
    (modrmByte mod reg rm).extractLsb' 6 2 = mod ∧ (modrmByte mod reg rm).extractLsb' 3 3 = reg ∧
      (modrmByte mod reg rm).extractLsb' 0 3 = rm := by
  revert mod reg rm; decide

theorem vlenOf_llOf (v : VLen) : vlenOf (llOf v) = some v := by cases v <;> rfl

theorem llOf_of_vlenOf {ll : BitVec 2} {v : VLen} (h : vlenOf ll = some v) : llOf v = ll := by
  revert h; revert ll v; decide

theorem disp32_bytes_append (d : BitVec 32) :
    d.extractLsb' 24 8 ++ d.extractLsb' 16 8 ++ d.extractLsb' 8 8 ++ d.extractLsb' 0 8 = d := by
  ext i hi
  simp only [BitVec.getElem_append, BitVec.getElem_extractLsb']
  split_ifs <;> (rw [← BitVec.getLsbD_eq_getElem hi]; congr 1; omega)

theorem takeDisp32_bytes (d : BitVec 32) (rest : List Byte) : takeDisp32 (disp32Bytes d ++ rest) = .ok (d, rest) := by
  simp only [disp32Bytes, List.cons_append, List.nil_append, takeDisp32, disp32_bytes_append]

theorem takeDisp32_ok {bs : List Byte} {d : BitVec 32} {rest : List Byte} (h : takeDisp32 bs = .ok (d, rest)) :
    bs = disp32Bytes d ++ rest := by
  unfold takeDisp32 at h
  split at h
  · next b0 b1 b2 b3 rest' =>
    cases h
    simp only [disp32Bytes, List.cons_append, List.nil_append, List.cons.injEq, and_true]
    refine ⟨?_, ?_, ?_, ?_⟩ <;>
      (ext i hi
       simp only [BitVec.getElem_extractLsb', BitVec.getLsbD_append]
       rw [← BitVec.getLsbD_eq_getElem hi]
       split_ifs <;> first | omega | (congr 1; omega))
  · cases h

theorem takeDisp_bytes (d : Disp) (rest : List Byte) : takeDisp (dispMod d) (dispBytes d ++ rest) = .ok (d, rest) := by
  cases d with
  | none => rfl
  | d8 v => rfl
  | d32 v => simp [takeDisp, dispMod, dispBytes, takeDisp32_bytes]

theorem mod_two {mod : BitVec 2} (h3 : mod ≠ 3) (h0 : ¬mod = 0) (h1 : ¬mod = 1) : mod = 2 := by
  revert mod; decide

/-- A displacement takes no byte, one byte or four, as `mod` says. -/
theorem takeDisp_ok {mod : BitVec 2} {bs : List Byte} {d : Disp} {rest : List Byte} (hm : mod ≠ 3)
    (h : takeDisp mod bs = .ok (d, rest)) : dispMod d = mod ∧ bs = dispBytes d ++ rest := by
  unfold takeDisp at h
  split_ifs at h with h0 h1
  · cases h; exact ⟨h0.symm, rfl⟩
  · split at h
    · cases h; exact ⟨h1.symm, rfl⟩
    · cases h
  · split at h
    · next d' rest' hd => cases h; exact ⟨(mod_two hm h0 h1).symm, takeDisp32_ok hd⟩
    · cases h

/-! ## Memory operands (20_memory R43) -/

theorem indexOf_none (base : BitVec 3) :
    indexOf false ((modrmByte 0 4 base).extractLsb' 3 3) ((modrmByte 0 4 base).extractLsb' 6 2) = none := by
  revert base; decide

theorem indexOf_some (j : Index) (h : indexOk (some j) = true) :
    indexOf (bit3 j.reg) (low3 j.reg) (BitVec.ofFin j.scale) = some j := by
  obtain ⟨r, sc⟩ := j
  have hr : r ≠ 4 := by simpa [indexOk] using h
  simp [indexOf, gprOf_bits, hr]

theorem indexOf_sibByte (i : Option Index) (base : BitVec 3) (h : indexOk i = true) :
    indexOf (indexX i) ((sibByte i base).extractLsb' 3 3) ((sibByte i base).extractLsb' 6 2) = i := by
  cases i with
  | none => exact indexOf_none base
  | some j =>
    obtain ⟨h6, h3, -⟩ := modrmByte_fields (BitVec.ofFin j.scale) (low3 j.reg) base
    simp only [sibByte, indexX, h6, h3]
    exact indexOf_some j h

theorem sibByte_base (i : Option Index) (base : BitVec 3) : (sibByte i base).extractLsb' 0 3 = base := by
  cases i <;> exact (modrmByte_fields _ _ _).2.2

theorem low3_eq_4 (b : Gpr) : low3 b = 4#3 ↔ b.val % 8 = 4 := by revert b; decide

theorem low3_eq_5 (b : Gpr) : low3 b = 5#3 ↔ b.val % 8 = 5 := by revert b; decide

theorem dispMod_eq_0 (d : Disp) : dispMod d = 0 ↔ d = .none := by cases d <;> simp [dispMod]

theorem dispMod_ne_3 (d : Disp) : dispMod d ≠ 3 := by cases d <;> simp [dispMod]

theorem baseDispOk_iff (b : Gpr) (d : Disp) : baseDispOk b d = true ↔ ¬(dispMod d = 0 ∧ low3 b = 5#3) := by
  rw [dispMod_eq_0, low3_eq_5]; simp [baseDispOk]; tauto

/-- The memory operand that the encoder writes is read back. -/
theorem readMem_memFields (a : MemOperand) (rest : List Byte) (h : a.ok = true) :
    readMem (memFields a).mod (memFields a).rm (memFields a).x (memFields a).b ((memFields a).tail ++ rest) =
      .ok (a, rest) := by
  cases a with
  | base b d =>
    simp only [MemOperand.ok, Bool.and_eq_true, baseDispOk_iff, bne_iff_ne, ne_eq, ← low3_eq_4] at h
    have h2 : ¬(dispMod d = 0#2 ∧ low3 b = 5#3) := h.2
    simp [readMem, memFields, takeDisp_bytes, gprOf_bits, h.1, h2]
  | rip d => simp [readMem, memFields, takeDisp32_bytes]
  | sib b i d =>
    simp only [MemOperand.ok, Bool.and_eq_true, baseDispOk_iff] at h
    simp only [readMem, memFields, List.cons_append, if_true, sibByte_base, indexOf_sibByte i _ h.1, takeDisp_bytes, gprOf_bits]
    rw [if_neg h.2]
  | sibNoBase i d =>
    simp only [MemOperand.ok] at h
    simp [readMem, memFields, sibByte_base, indexOf_sibByte i _ h, takeDisp32_bytes]

/-! ## Lengths (30_encoding R71) -/

theorem encodePfx_length (p : Pfx) : (encodePfx p).length = Machine.pfxLength p := by
  obtain ⟨seg, a⟩ := p
  cases seg <;> cases a <;> rfl

theorem memFields_tail_length (a : MemOperand) : (memFields a).tail.length = Machine.memOperandLength a := by
  cases a with
  | base b d => cases d <;> rfl
  | rip d => rfl
  | sib b i d => cases d <;> rfl
  | sibNoBase i d => rfl

theorem encodeReg_length (vvvv : BitVec 4) (ll : BitVec 2) (bc : Bool) (p : Pfx) (m : Masking) (dst src : VReg) :
    (encodeReg vvvv ll bc p m dst src).length = Machine.regLength p := by
  simp [encodeReg, Machine.regLength, encodePfx_length]

theorem encodeMem_length (vvvv : BitVec 4) (ll : BitVec 2) (bc : Bool) (p : Pfx) (m : Masking) (dst : VReg)
    (a : MemOperand) : (encodeMem vvvv ll bc p m dst a).length = Machine.memLength p a := by
  simp [encodeMem, Machine.memLength, encodePfx_length, memFields_tail_length]; omega

theorem pfxLength_le (p : Pfx) : Machine.pfxLength p ≤ 2 := by
  unfold Machine.pfxLength; split_ifs <;> omega

theorem memOperandLength_le (a : MemOperand) : Machine.memOperandLength a ≤ 5 := by
  have h : ∀ d, Machine.dispLength d ≤ 4 := fun d => by cases d <;> simp [Machine.dispLength]
  cases a with
  | base b d => exact Nat.le_succ_of_le (h d)
  | rip d => exact Nat.le_succ 4
  | sib b i d => have := h d; simp only [Machine.memOperandLength]; omega
  | sibNoBase i d => exact Nat.le_refl 5

/-! ## What decoding says -/

/-- Everything that bytes after 0x62 that decode say. -/
theorem decodeEvex_ok {p bs} {i rest} (h : decodeEvex p bs = .ok i rest) :
  ∃ p0 p1 p2 modrm tail e, bs = p0 :: p1 :: p2 :: 0x7A :: modrm :: tail ∧ readPayload p0 p1 p2 0x7A = .ok e ∧
    readForm p e modrm tail = .ok (i, rest) ∧ e.vvvv = 15 := by
  unfold decodeEvex at h
  split at h
  · next p0 p1 p2 o modrm tail =>
    split at h
    · cases h
    · next e he =>
      have ho := (readPayload_ok he).1.2.2.2.2.2.1
      subst ho
      cases hf : readForm p e modrm tail with
      | error r => simp [hf, finishDecode] at h
      | ok x =>
        obtain ⟨j, r⟩ := x
        simp only [hf, finishDecode] at h
        split_ifs at h with hv
        cases h
        exact ⟨_, _, _, _, _, e, rfl, he, hf, hv⟩
  · cases h

/-- Everything that bytes that decode say: prefixes, payload, opcode, ModRM, and the form that was read. -/
theorem decode_ok {bs} {i rest} (h : decode bs = .ok i rest) :
  ∃ p pre p0 p1 p2 modrm tail e, bs = pre ++ 0x62 :: p0 :: p1 :: p2 :: 0x7A :: modrm :: tail ∧ pre.length = Machine.pfxLength p ∧
    scanPfx {} bs = .ok (p, p0 :: p1 :: p2 :: 0x7A :: modrm :: tail) ∧
    readPayload p0 p1 p2 0x7A = .ok e ∧ readForm p e modrm tail = .ok (i, rest) ∧ e.vvvv = 15 := by
  unfold decode at h
  split at h
  · cases h
  · next p r hp =>
    obtain ⟨p0, p1, p2, modrm, tail, e, rfl, he, hf, hv⟩ := decodeEvex_ok h
    obtain ⟨pre, h1, h2, h3, h4⟩ := scanPfx_ok hp
    exact ⟨p, pre, p0, p1, p2, modrm, tail, e, h1, by simpa [Machine.pfxLength] using h2, hp, he, hf, hv⟩

theorem low3_gprOf (b u) : low3 (gprOf b u) = u := by revert b u; decide

theorem indexOk_indexOf (x u w) : indexOk (indexOf x u w) = true := by revert x u w; decide

/-- A memory operand that is read is well-formed, and takes as many bytes as its length says. -/
theorem readMem_ok {mod rm x b bs a rest} (hm : mod ≠ 3) (h : readMem mod rm x b bs = .ok (a, rest)) :
   a.ok = true ∧ ∃ t, bs = t ++ rest ∧ t.length = Machine.memOperandLength a := by
  unfold readMem at h
  have d32 : ∀ d, (disp32Bytes d).length = 4 := fun _ => rfl
  have dl : ∀ d, (dispBytes d).length = Machine.dispLength d := by intro d; cases d <;> rfl
  split_ifs at h with h4 h0
  · split at h
    · cases h
    · next sib tail =>
      simp only at h
      split_ifs at h with h5
      · split at h
        · next d r' hd => cases h; exact ⟨indexOk_indexOf _ _ _, sib :: disp32Bytes d, by rw [takeDisp32_ok hd]; rfl, rfl⟩
        · cases h
      · split at h
        · next d r' hd =>
          cases h
          obtain ⟨k1, k2⟩ := takeDisp_ok hm hd
          refine ⟨?_, sib :: dispBytes d, by rw [k2]; rfl, by simp [Machine.memOperandLength, dl]; omega⟩
          simp only [MemOperand.ok, indexOk_indexOf, Bool.true_and, baseDispOk_iff, low3_gprOf, k1]
          exact h5
        · cases h
  · split at h
    · next d r' hd => cases h; exact ⟨rfl, disp32Bytes d, takeDisp32_ok hd, rfl⟩
    · cases h
  · split at h
    · next d r' hd =>
      cases h
      obtain ⟨k1, k2⟩ := takeDisp_ok hm hd
      refine ⟨?_, dispBytes d, k2, dl d⟩
      simp only [MemOperand.ok, Bool.and_eq_true, baseDispOk_iff, low3_gprOf, k1, bne_iff_ne, ne_eq, ← low3_eq_4]
      exact ⟨h4, h0⟩
    · cases h

/-- An accepted payload has good masking fields. -/
theorem readPayload_masking {p0 p1 p2 o e} (h : readPayload p0 p1 p2 o = .ok e) : Masking.ok ⟨e.aaa.toFin, e.z⟩ = true := by
  obtain ⟨⟨-,-,-,-,-,-,-,h8⟩, rfl⟩ := readPayload_ok h
  clear h
  simp only [Masking.ok]
  generalize p2.getLsbD 7 = z at *
  generalize p2.extractLsb' 0 3 = a at *
  revert z a; decide

/-- An instruction that is read is well-formed, and takes as many bytes as its length says. -/
theorem readForm_ok {p e modrm bs i rest} (hm : Masking.ok ⟨e.aaa.toFin, e.z⟩ = true) (h : readForm p e modrm bs = .ok (i, rest)) :
  wellFormed i = true ∧ ∃ t, bs = t ++ rest ∧ Machine.instrLength i = Machine.pfxLength p + 6 + t.length := by
  unfold readForm at h
  simp only at h
  split_ifs at h with h3 hb
  · cases h; exact ⟨hm, [], rfl, rfl⟩
  · split at h
    · cases h
    · next v hv => cases h; cases v <;> exact ⟨hm, [], rfl, rfl⟩
  all_goals
    split at h
    · cases h
    · next v hv =>
      split at h
      · cases h
      · next a r' ha =>
        cases h
        obtain ⟨k1, t, k2, k3⟩ := readMem_ok h3 ha
        refine ⟨?_, t, k2, ?_⟩
        · cases v <;> simp_all [wellFormed, bcstForm, memForm]
        · rw [k3]; cases v <;> rfl

/-- The check of the payload does not look at vvvv. -/
theorem readPayload_withVvvv {p0 p1 p2 o e} (v : BitVec 4) (h : readPayload p0 p1 p2 o = .ok e) :
   readPayload p0 (p1.extractLsb' 7 1 ++ v ++ p1.extractLsb' 0 3) p2 o = .ok { e with vvvv := v } := by
  obtain ⟨⟨a1,a2,a3,a4,a5,a6,a7,a8⟩, rfl⟩ := readPayload_ok h
  have q : ∀ (u : BitVec 1) (w : BitVec 3) (v : BitVec 4), (u ++ v ++ w).getLsbD 7 = u.getLsbD 0 ∧ (u ++ v ++ w).getLsbD 2 = w.getLsbD 2 ∧ (u ++ v ++ w).extractLsb' 0 2 = w.extractLsb' 0 2 ∧ (u ++ v ++ w).extractLsb' 3 4 = v := by decide
  have e7 : p1.getLsbD 7 = (p1.extractLsb' 7 1).getLsbD 0 := by simp
  have e2 : p1.getLsbD 2 = (p1.extractLsb' 0 3).getLsbD 2 := by simp
  have e0 : p1.extractLsb' 0 2 = (p1.extractLsb' 0 3).extractLsb' 0 2 := by ext i hi; simp
  obtain ⟨q1,q2,q3,q4⟩ := q (p1.extractLsb' 7 1) (p1.extractLsb' 0 3) v
  unfold readPayload
  have hz : (p2.getLsbD 7 && p2.extractLsb' 0 3 == 0#3) = false := by
    rw [Bool.eq_false_iff]; simpa using a8
  rw [q1, ← e7, q2, ← e2, q3, ← e0, q4, a1, a3, a4, a7, hz, if_neg (by decide), if_neg (not_not.2 a2), if_neg (by decide), if_neg (by decide), if_neg (not_not.2 a5), if_neg (not_not.2 a6)]
  rfl

/-- The form does not depend on vvvv. -/
theorem readForm_withVvvv (p e modrm bs v) : readForm p { e with vvvv := v } modrm bs = readForm p e modrm bs := rfl

end Sys2Proof
end

