-- ==== Sys2Proof/Laws/State.lean ====
section
/-! SUPPORT. One lemma for each field of State and each update, true by unfolding, so that no proof unfolds a record update. -/

namespace Sys2Proof.Machine

/-! ## writeVec -/

@[simp] theorem writeVec_zmm (s : State) (r : VReg) (v : Vec) : (writeVec s r v).zmm = s.zmm.set r v := rfl
@[simp] theorem writeVec_k (s : State) (r : VReg) (v : Vec) : (writeVec s r v).k = s.k := rfl
@[simp] theorem writeVec_mxcsr (s : State) (r : VReg) (v : Vec) : (writeVec s r v).mxcsr = s.mxcsr := rfl
@[simp] theorem writeVec_gpr (s : State) (r : VReg) (v : Vec) : (writeVec s r v).gpr = s.gpr := rfl
@[simp] theorem writeVec_pc (s : State) (r : VReg) (v : Vec) : (writeVec s r v).pc = s.pc := rfl
@[simp] theorem writeVec_csBase (s : State) (r : VReg) (v : Vec) : (writeVec s r v).csBase = s.csBase := rfl
@[simp] theorem writeVec_fsBase (s : State) (r : VReg) (v : Vec) : (writeVec s r v).fsBase = s.fsBase := rfl
@[simp] theorem writeVec_gsBase (s : State) (r : VReg) (v : Vec) : (writeVec s r v).gsBase = s.gsBase := rfl
@[simp] theorem writeVec_cr0 (s : State) (r : VReg) (v : Vec) : (writeVec s r v).cr0 = s.cr0 := rfl
@[simp] theorem writeVec_cr4 (s : State) (r : VReg) (v : Vec) : (writeVec s r v).cr4 = s.cr4 := rfl
@[simp] theorem writeVec_xcr0 (s : State) (r : VReg) (v : Vec) : (writeVec s r v).xcr0 = s.xcr0 := rfl
@[simp] theorem writeVec_rflags (s : State) (r : VReg) (v : Vec) : (writeVec s r v).rflags = s.rflags := rfl
@[simp] theorem writeVec_cpl (s : State) (r : VReg) (v : Vec) : (writeVec s r v).cpl = s.cpl := rfl
@[simp] theorem writeVec_mode (s : State) (r : VReg) (v : Vec) : (writeVec s r v).mode = s.mode := rfl
@[simp] theorem writeVec_mem (s : State) (r : VReg) (v : Vec) : (writeVec s r v).mem = s.mem := rfl
@[simp] theorem writeVec_cpuid7Ebx (s : State) (r : VReg) (v : Vec) : (writeVec s r v).cpuid7Ebx = s.cpuid7Ebx := rfl
@[simp] theorem writeVec_xlat (s : State) (r : VReg) (v : Vec) : (writeVec s r v).xlat = s.xlat := rfl
@[simp] theorem writeVec_params (s : State) (r : VReg) (v : Vec) : (writeVec s r v).params = s.params := rfl
@[simp] theorem writeVec_draws (s : State) (r : VReg) (v : Vec) : (writeVec s r v).draws = s.draws := rfl

/-! ## writeMxcsr -/

@[simp] theorem writeMxcsr_zmm (s : State) (x : Dword) : (writeMxcsr s x).zmm = s.zmm := rfl
@[simp] theorem writeMxcsr_k (s : State) (x : Dword) : (writeMxcsr s x).k = s.k := rfl
@[simp] theorem writeMxcsr_mxcsr (s : State) (x : Dword) : (writeMxcsr s x).mxcsr = x := rfl
@[simp] theorem writeMxcsr_gpr (s : State) (x : Dword) : (writeMxcsr s x).gpr = s.gpr := rfl
@[simp] theorem writeMxcsr_pc (s : State) (x : Dword) : (writeMxcsr s x).pc = s.pc := rfl
@[simp] theorem writeMxcsr_csBase (s : State) (x : Dword) : (writeMxcsr s x).csBase = s.csBase := rfl
@[simp] theorem writeMxcsr_fsBase (s : State) (x : Dword) : (writeMxcsr s x).fsBase = s.fsBase := rfl
@[simp] theorem writeMxcsr_gsBase (s : State) (x : Dword) : (writeMxcsr s x).gsBase = s.gsBase := rfl
@[simp] theorem writeMxcsr_cr0 (s : State) (x : Dword) : (writeMxcsr s x).cr0 = s.cr0 := rfl
@[simp] theorem writeMxcsr_cr4 (s : State) (x : Dword) : (writeMxcsr s x).cr4 = s.cr4 := rfl
@[simp] theorem writeMxcsr_xcr0 (s : State) (x : Dword) : (writeMxcsr s x).xcr0 = s.xcr0 := rfl
@[simp] theorem writeMxcsr_rflags (s : State) (x : Dword) : (writeMxcsr s x).rflags = s.rflags := rfl
@[simp] theorem writeMxcsr_cpl (s : State) (x : Dword) : (writeMxcsr s x).cpl = s.cpl := rfl
@[simp] theorem writeMxcsr_mode (s : State) (x : Dword) : (writeMxcsr s x).mode = s.mode := rfl
@[simp] theorem writeMxcsr_mem (s : State) (x : Dword) : (writeMxcsr s x).mem = s.mem := rfl
@[simp] theorem writeMxcsr_cpuid7Ebx (s : State) (x : Dword) : (writeMxcsr s x).cpuid7Ebx = s.cpuid7Ebx := rfl
@[simp] theorem writeMxcsr_xlat (s : State) (x : Dword) : (writeMxcsr s x).xlat = s.xlat := rfl
@[simp] theorem writeMxcsr_params (s : State) (x : Dword) : (writeMxcsr s x).params = s.params := rfl
@[simp] theorem writeMxcsr_draws (s : State) (x : Dword) : (writeMxcsr s x).draws = s.draws := rfl

/-! ## advancePc -/

@[simp] theorem advancePc_zmm (s : State) (n : Nat) : (advancePc s n).zmm = s.zmm := rfl
@[simp] theorem advancePc_k (s : State) (n : Nat) : (advancePc s n).k = s.k := rfl
@[simp] theorem advancePc_mxcsr (s : State) (n : Nat) : (advancePc s n).mxcsr = s.mxcsr := rfl
@[simp] theorem advancePc_gpr (s : State) (n : Nat) : (advancePc s n).gpr = s.gpr := rfl
@[simp] theorem advancePc_pc (s : State) (n : Nat) : (advancePc s n).pc = s.pc + BitVec.ofNat 64 n := rfl
@[simp] theorem advancePc_csBase (s : State) (n : Nat) : (advancePc s n).csBase = s.csBase := rfl
@[simp] theorem advancePc_fsBase (s : State) (n : Nat) : (advancePc s n).fsBase = s.fsBase := rfl
@[simp] theorem advancePc_gsBase (s : State) (n : Nat) : (advancePc s n).gsBase = s.gsBase := rfl
@[simp] theorem advancePc_cr0 (s : State) (n : Nat) : (advancePc s n).cr0 = s.cr0 := rfl
@[simp] theorem advancePc_cr4 (s : State) (n : Nat) : (advancePc s n).cr4 = s.cr4 := rfl
@[simp] theorem advancePc_xcr0 (s : State) (n : Nat) : (advancePc s n).xcr0 = s.xcr0 := rfl
@[simp] theorem advancePc_rflags (s : State) (n : Nat) : (advancePc s n).rflags = s.rflags := rfl
@[simp] theorem advancePc_cpl (s : State) (n : Nat) : (advancePc s n).cpl = s.cpl := rfl
@[simp] theorem advancePc_mode (s : State) (n : Nat) : (advancePc s n).mode = s.mode := rfl
@[simp] theorem advancePc_mem (s : State) (n : Nat) : (advancePc s n).mem = s.mem := rfl
@[simp] theorem advancePc_cpuid7Ebx (s : State) (n : Nat) : (advancePc s n).cpuid7Ebx = s.cpuid7Ebx := rfl
@[simp] theorem advancePc_xlat (s : State) (n : Nat) : (advancePc s n).xlat = s.xlat := rfl
@[simp] theorem advancePc_params (s : State) (n : Nat) : (advancePc s n).params = s.params := rfl
@[simp] theorem advancePc_draws (s : State) (n : Nat) : (advancePc s n).draws = s.draws := rfl

/-! ## drawn -/

@[simp] theorem drawn_zmm (s : State) : (drawn s).zmm = s.zmm := rfl
@[simp] theorem drawn_k (s : State) : (drawn s).k = s.k := rfl
@[simp] theorem drawn_mxcsr (s : State) : (drawn s).mxcsr = s.mxcsr := rfl
@[simp] theorem drawn_gpr (s : State) : (drawn s).gpr = s.gpr := rfl
@[simp] theorem drawn_pc (s : State) : (drawn s).pc = s.pc := rfl
@[simp] theorem drawn_csBase (s : State) : (drawn s).csBase = s.csBase := rfl
@[simp] theorem drawn_fsBase (s : State) : (drawn s).fsBase = s.fsBase := rfl
@[simp] theorem drawn_gsBase (s : State) : (drawn s).gsBase = s.gsBase := rfl
@[simp] theorem drawn_cr0 (s : State) : (drawn s).cr0 = s.cr0 := rfl
@[simp] theorem drawn_cr4 (s : State) : (drawn s).cr4 = s.cr4 := rfl
@[simp] theorem drawn_xcr0 (s : State) : (drawn s).xcr0 = s.xcr0 := rfl
@[simp] theorem drawn_rflags (s : State) : (drawn s).rflags = s.rflags := rfl
@[simp] theorem drawn_cpl (s : State) : (drawn s).cpl = s.cpl := rfl
@[simp] theorem drawn_mode (s : State) : (drawn s).mode = s.mode := rfl
@[simp] theorem drawn_mem (s : State) : (drawn s).mem = s.mem := rfl
@[simp] theorem drawn_cpuid7Ebx (s : State) : (drawn s).cpuid7Ebx = s.cpuid7Ebx := rfl
@[simp] theorem drawn_xlat (s : State) : (drawn s).xlat = s.xlat := rfl
@[simp] theorem drawn_params (s : State) : (drawn s).params = s.params := rfl
@[simp] theorem drawn_draws (s : State) : (drawn s).draws = s.draws + 1 := rfl

/-! ## memWrite -/

@[simp] theorem memWrite_zmm (s : State) (a : Qword) (bs : List Byte) : (memWrite s a bs).zmm = s.zmm := rfl
@[simp] theorem memWrite_k (s : State) (a : Qword) (bs : List Byte) : (memWrite s a bs).k = s.k := rfl
@[simp] theorem memWrite_mxcsr (s : State) (a : Qword) (bs : List Byte) : (memWrite s a bs).mxcsr = s.mxcsr := rfl
@[simp] theorem memWrite_gpr (s : State) (a : Qword) (bs : List Byte) : (memWrite s a bs).gpr = s.gpr := rfl
@[simp] theorem memWrite_pc (s : State) (a : Qword) (bs : List Byte) : (memWrite s a bs).pc = s.pc := rfl
@[simp] theorem memWrite_csBase (s : State) (a : Qword) (bs : List Byte) : (memWrite s a bs).csBase = s.csBase := rfl
@[simp] theorem memWrite_fsBase (s : State) (a : Qword) (bs : List Byte) : (memWrite s a bs).fsBase = s.fsBase := rfl
@[simp] theorem memWrite_gsBase (s : State) (a : Qword) (bs : List Byte) : (memWrite s a bs).gsBase = s.gsBase := rfl
@[simp] theorem memWrite_cr0 (s : State) (a : Qword) (bs : List Byte) : (memWrite s a bs).cr0 = s.cr0 := rfl
@[simp] theorem memWrite_cr4 (s : State) (a : Qword) (bs : List Byte) : (memWrite s a bs).cr4 = s.cr4 := rfl
@[simp] theorem memWrite_xcr0 (s : State) (a : Qword) (bs : List Byte) : (memWrite s a bs).xcr0 = s.xcr0 := rfl
@[simp] theorem memWrite_rflags (s : State) (a : Qword) (bs : List Byte) : (memWrite s a bs).rflags = s.rflags := rfl
@[simp] theorem memWrite_cpl (s : State) (a : Qword) (bs : List Byte) : (memWrite s a bs).cpl = s.cpl := rfl
@[simp] theorem memWrite_mode (s : State) (a : Qword) (bs : List Byte) : (memWrite s a bs).mode = s.mode := rfl
@[simp] theorem memWrite_mem (s : State) (a : Qword) (bs : List Byte) : (memWrite s a bs).mem = s.mem.writeBytes a bs := rfl
@[simp] theorem memWrite_cpuid7Ebx (s : State) (a : Qword) (bs : List Byte) : (memWrite s a bs).cpuid7Ebx = s.cpuid7Ebx := rfl
@[simp] theorem memWrite_xlat (s : State) (a : Qword) (bs : List Byte) : (memWrite s a bs).xlat = s.xlat := rfl
@[simp] theorem memWrite_params (s : State) (a : Qword) (bs : List Byte) : (memWrite s a bs).params = s.params := rfl
@[simp] theorem memWrite_draws (s : State) (a : Qword) (bs : List Byte) : (memWrite s a bs).draws = s.draws := rfl

end Sys2Proof.Machine
end

