-- ==== Sys2Proof/Laws/Flags.lean ====
section
/-! SUPPORT. What the flag update does to each bit of MXCSR (spec 40_vcvttps2qq R97). -/

namespace Sys2Proof.Machine

theorem flagWord_getLsbD (ie pe : Bool) (b : Nat) :
    (flagWord ie pe).getLsbD b = ((ie && decide (b = 0)) || (pe && decide (b = 5))) := by
  by_cases hb : b < 32
  · cases ie <;> cases pe <;> (revert hb; revert b; decide)
  · have h1 : ¬ b = 0 := by omega
    have h2 : ¬ b = 5 := by omega
    simp [BitVec.getLsbD_of_ge _ _ (Nat.le_of_not_lt hb), h1, h2]

/-- Bit by bit: IE and PE are OR-ed in, the rest stays. -/
theorem orFlags_getLsbD (x : Dword) (ie pe : Bool) (b : Nat) :
    (orFlags x ie pe).getLsbD b = (x.getLsbD b || (ie && decide (b = 0)) || (pe && decide (b = 5))) := by
  simp [orFlags, flagWord_getLsbD, Bool.or_assoc]

@[simp] theorem orFlags_none (x : Dword) : orFlags x false false = x := by simp [orFlags, flagWord]

theorem orFlags_other (x : Dword) (ie pe : Bool) {b : Nat} (h0 : b ≠ 0) (h5 : b ≠ 5) :
    (orFlags x ie pe).getLsbD b = x.getLsbD b := by simp [orFlags_getLsbD, h0, h5]

theorem orFlags_sticky (x : Dword) (ie pe : Bool) {b : Nat} (h : x.getLsbD b = true) :
    (orFlags x ie pe).getLsbD b = true := by simp [orFlags_getLsbD, h]

/-- The reserved bits of MXCSR stay as they are. -/
theorem orFlags_reserved (x : Dword) (ie pe : Bool) : (orFlags x ie pe).extractLsb' 16 16 = x.extractLsb' 16 16 := by
  ext i hi
  simp only [BitVec.getElem_extractLsb']
  exact orFlags_other x ie pe (by omega) (by omega)

end Sys2Proof.Machine
end

