-- ==== Sys2Proof/Laws/Memory.lean ====
section
/-! SUPPORT. Memory: every operation keeps the canonical form; a read after a write (spec 00_scope R7, 20_memory R41). -/

namespace Sys2Proof.Machine

theorem Memory.read_write_same (m : Memory) (a : Nat) (b : Byte) : (m.write a b).read a = some b := by
  induction m with
  | nil => simp [Memory.write, Memory.read]
  | cons c rest ih =>
    obtain ⟨k, v⟩ := c
    simp only [Memory.write]
    split_ifs with h1 h2
    · simp [Memory.read]
    · simp [Memory.read]
    · simp [Memory.read, Ne.symm h2, ih]

theorem Memory.read_write_other (m : Memory) {a c : Nat} (b : Byte) (h : c ≠ a) : (m.write a b).read c = m.read c := by
  induction m with
  | nil => simp [Memory.write, Memory.read, h.symm]
  | cons e rest ih =>
    obtain ⟨k, v⟩ := e
    simp only [Memory.write]
    split_ifs with h1 h2
    · simp [Memory.read, h.symm]
    · subst h2; simp [Memory.read, h.symm]
    · simp [Memory.read, ih]

/-- What a write can put above a lower bound. -/
theorem Memory.write_above {m : Memory} {a n : Nat} (b : Byte) (ha : n < a)
    (h : m.all (fun c => decide (n < c.1)) = true) : (m.write a b).all (fun c => decide (n < c.1)) = true := by
  induction m with
  | nil => simp [Memory.write, ha]
  | cons e rest ih =>
    obtain ⟨k, v⟩ := e
    simp only [List.all_cons, Bool.and_eq_true, decide_eq_true_eq] at h
    have ih' := ih h.2
    simp only [Memory.write]
    split_ifs with h1 h2
    · simp only [List.all_cons, Bool.and_eq_true, decide_eq_true_eq]; exact ⟨ha, h.1, h.2⟩
    · simp only [List.all_cons, Bool.and_eq_true, decide_eq_true_eq]; exact ⟨ha, h.2⟩
    · simp only [List.all_cons, Bool.and_eq_true, decide_eq_true_eq]; exact ⟨h.1, ih'⟩

/-- A write keeps the canonical form. -/
theorem Memory.write_wf {m : Memory} {a : Nat} (b : Byte) (ha : a < 2 ^ 64) (h : m.wf = true) : (m.write a b).wf = true := by
  induction m with
  | nil => simpa [Memory.write, Memory.wf] using ha
  | cons e rest ih =>
    obtain ⟨k, v⟩ := e
    simp only [Memory.wf, Bool.and_eq_true, decide_eq_true_eq] at h
    obtain ⟨⟨hk, hall⟩, hwf⟩ := h
    simp only [Memory.write]
    split_ifs with h1 h2
    · simp only [Memory.wf, List.all_cons, Bool.and_eq_true, decide_eq_true_eq]
      refine ⟨⟨ha, h1, ?_⟩, ⟨hk, hall⟩, hwf⟩
      simp only [List.all_eq_true, decide_eq_true_eq] at hall ⊢
      exact fun c hc => Nat.lt_trans h1 (hall c hc)
    · subst h2
      simp only [Memory.wf, Bool.and_eq_true, decide_eq_true_eq]
      exact ⟨⟨hk, hall⟩, hwf⟩
    · have hka : k < a := by omega
      simp only [Memory.wf, Bool.and_eq_true, decide_eq_true_eq]
      exact ⟨⟨hk, Memory.write_above b hka hall⟩, ih hwf⟩

/-- A store of bytes keeps the canonical form. -/
theorem Memory.writeBytes_wf {m : Memory} (a : Qword) (bs : List Byte) (h : m.wf = true) :
    (m.writeBytes a bs).wf = true := by
  induction bs generalizing m a with
  | nil => exact h
  | cons b bs ih => exact ih (a + 1) (Memory.write_wf b a.isLt h)

theorem memWrite_wf {s : State} (a : Qword) (bs : List Byte) (h : s.mem.wf = true) : (memWrite s a bs).mem.wf = true :=
  Memory.writeBytes_wf a bs h

/-- A store of bytes leaves every other address alone. -/
theorem Memory.read_writeBytes_other (m : Memory) (a : Qword) (bs : List Byte) {c : Nat}
    (h : ∀ i < bs.length, c ≠ (a + BitVec.ofNat 64 i).toNat) : (m.writeBytes a bs).read c = m.read c := by
  induction bs generalizing m a with
  | nil => rfl
  | cons b bs ih =>
    have h0 : c ≠ a.toNat := by simpa using h 0 (by simp)
    rw [Memory.writeBytes, ih, Memory.read_write_other _ _ h0]
    intro i hi
    have := h (i + 1) (by simpa using hi)
    rwa [show a + BitVec.ofNat 64 (i + 1) = a + 1 + BitVec.ofNat 64 i by
      rw [Nat.add_comm i 1, BitVec.ofNat_add, ← BitVec.add_assoc]; rfl] at this

/-- A byte is read from the state's memory and `translate` alone. -/
theorem readByte_congr {s t : State} (hm : t.mem = s.mem) (hx : t.xlat = s.xlat) (hd : t.draws = s.draws) (acc : Access)
    (a : Qword) : readByte t acc a = readByte s acc a := by
  simp [readByte, xlatLookup, physByte, hm, hx, hd]

theorem physByte_eq_ok_iff {s : State} {p : Qword} {b : Byte} : physByte s p = .ok b ↔ s.mem.read p.toNat = some b := by
  unfold physByte
  cases s.mem.read p.toNat <;> simp

theorem byteAt_eq_some_iff {s : State} {a : Qword} {b : Byte} : byteAt s a = some b ↔ readByte s .read a = .ok b := by
  unfold byteAt
  cases readByte s .read a <;> simp

/-- Which byte can be read hangs on memory and `translate` alone, not on the draw number. -/
theorem byteAt_congr {s t : State} (hm : t.mem = s.mem) (hx : t.xlat = s.xlat) (a : Qword) : byteAt t a = byteAt s a := by
  ext b
  simp only [byteAt_eq_some_iff, readByte, xlatLookup, hx]
  split
  · simp only [physByte_eq_ok_iff, hm]
  · rfl
  · split
    · simp only [physByte_eq_ok_iff, hm]
    · rfl

end Sys2Proof.Machine
end

