-- ==== Sys2Proof/Laws/Exec.lean ====
section
/-! SUPPORT. What each shared operation of the meanings can do, said once: the enables, the operand read, the packing of the
result, EXEC, and one step. -/

namespace Sys2Proof.Machine

/-! ## The enables -/

theorem checkEnabled_eq_none_iff (v : VLen) (s : State) : checkEnabled v s = none ↔ Enabled v s := by
  unfold checkEnabled Enabled
  split_ifs <;> simp_all

/-- A failed check refuses, or raises an exception that records the state as it was. -/
theorem checkEnabled_eq_some {v : VLen} {s : State} {o : Host.Outcome State Fault Refusal} (h : checkEnabled v s = some o) :
    (∃ r, o = .refused r) ∨ ∃ f, o = .fault f ∧ stateAfter f = s ∧ (vectorOf f = 6 ∨ vectorOf f = 7) := by
  unfold checkEnabled premiseFails raise at h
  split_ifs at h <;> simp only [Option.some.injEq] at h <;> subst h <;> simp [stateAfter, vectorOf]

/-! ## Packing -/

theorem packQwords_getLsbD (l : List Qword) (b : Nat) :
    (packQwords l).getLsbD b = (decide (b < 512) && (l.getD (b / 64) 0).getLsbD (b % 64)) := by
  induction l generalizing b with
  | nil => simp [packQwords]
  | cons x xs ih =>
    by_cases hb : b < 512
    · by_cases h64 : b < 64
      · simp [packQwords, hb, h64, Nat.div_eq_of_lt h64, Nat.mod_eq_of_lt h64]
      · have h1 : b / 64 = (b - 64) / 64 + 1 := by omega
        have h2 : b % 64 = (b - 64) % 64 := by omega
        have h3 : b - 64 < 512 := by omega
        have h4 : x.getLsbD b = false := BitVec.getLsbD_of_ge _ _ (by omega)
        have h5 : (packQwords xs).getLsbD (b - 64) = (xs.getD ((b - 64) / 64) 0).getLsbD ((b - 64) % 64) := by
          rw [ih]; simp [h3]
        rw [packQwords, BitVec.getLsbD_or, BitVec.getLsbD_shiftLeft, h5, h1, h2]
        simp [hb, h64, h4]
    · simp [hb, BitVec.getLsbD_of_ge _ _ (Nat.le_of_not_lt hb)]

/-- Element `j` of a packed vector. -/
theorem elem64_packQwords (l : List Qword) {j : Nat} (hj : j < 8) : elem64 (packQwords l) j = l.getD j 0 := by
  ext i hi
  simp only [elem64, BitVec.getElem_extractLsb', packQwords_getLsbD]
  rw [show (64 * j + i) / 64 = j by omega, show (64 * j + i) % 64 = i by omega]
  simp [show 64 * j + i < 512 by omega, BitVec.getLsbD_eq_getElem hi]

/-! ## Lanes -/

theorem laneResults_length (v : VLen) (s : State) (m : Masking) (dst : VReg) (src : List Dword) :
    (laneResults v s m dst src).length = lanesOf v := by simp [laneResults]

theorem lanesOf_le (v : VLen) : lanesOf v ≤ 8 := by cases v <;> decide

/-- Element `j` of the new destination value. -/
theorem laneResults_elem (v : VLen) (s : State) (m : Masking) (dst : VReg) (src : List Dword) {j : Nat} (hj : j < 8) :
    elem64 (packQwords ((laneResults v s m dst src).map Cvt.r)) j =
      if j < lanesOf v then
        (laneResult (laneActive s m j) m.z (elem64 (readVec s dst) j) (src.getD j 0) (mxDAZ s.mxcsr)).r
      else 0 := by
  rw [elem64_packQwords _ hj]
  by_cases h : j < lanesOf v <;> simp [laneResults, h, List.getD_eq_getElem?_getD]

/-- Invalid is signalled by an active lane. -/
theorem laneResults_ie (v : VLen) (s : State) (m : Masking) (dst : VReg) (src : List Dword) :
    (laneResults v s m dst src).any Cvt.ie = true ↔
      ∃ j < lanesOf v, laneActive s m j = true ∧ (cvtt (src.getD j 0) (mxDAZ s.mxcsr)).ie = true := by
  simp only [laneResults, List.any_map, List.any_eq_true, List.mem_range, Function.comp]
  refine exists_congr fun j => and_congr_right fun _ => ?_
  cases h : laneActive s m j <;> simp [laneResult]

/-- Precision is signalled by an active lane. -/
theorem laneResults_pe (v : VLen) (s : State) (m : Masking) (dst : VReg) (src : List Dword) :
    (laneResults v s m dst src).any Cvt.pe = true ↔
      ∃ j < lanesOf v, laneActive s m j = true ∧ (cvtt (src.getD j 0) (mxDAZ s.mxcsr)).pe = true := by
  simp only [laneResults, List.any_map, List.any_eq_true, List.mem_range, Function.comp]
  refine exists_congr fun j => and_congr_right fun _ => ?_
  cases h : laneActive s m j <;> simp [laneResult]

/-! ## EXEC -/

/-- Every arm is EXEC with the parts of its instruction. -/
theorem exec_eq_execForm (i : Instr) (s : State) :
    exec i s = execForm (instrVLen i) (instrSae i) (instrLength i) (instrMask i) (instrDst i) s (sourceOf i s) := by
  cases i <;> rfl

/-- The state that a completed instruction leaves, from its source elements. -/
def committed (i : Instr) (s : State) (src : List Dword) : State :=
  let lanes := laneResults (instrVLen i) s (instrMask i) (instrDst i) src
  advancePc
    (writeMxcsr (writeVec s (instrDst i) (packQwords (lanes.map Cvt.r)))
      (if instrSae i then s.mxcsr else orFlags s.mxcsr (lanes.any Cvt.ie) (lanes.any Cvt.pe)))
    (instrLength i)

/-- The lanes signal an exception that is not masked. -/
def unmaskedSignal (i : Instr) (s : State) (src : List Dword) : Bool :=
  let lanes := laneResults (instrVLen i) s (instrMask i) (instrDst i) src
  !instrSae i && unmasked s.mxcsr (lanes.any Cvt.ie) (lanes.any Cvt.pe)

theorem finish_eq (i : Instr) (s : State) (src : List Dword) :
    finish (instrVLen i) (instrSae i) (instrLength i) (instrMask i) (instrDst i) s src =
      if unmaskedSignal i s src then raiseSimd s else .next (committed i s src) := by
  unfold finish unmaskedSignal committed
  cases instrSae i
  · simp
  · simp; rfl

theorem raiseSimd_ne_next (s t : State) : raiseSimd s ≠ .next t := by unfold raiseSimd raise; split <;> simp

theorem checkEnabled_ne_next {v : VLen} {s : State} {t : State} : checkEnabled v s ≠ some (.next t) := by
  intro h
  rcases checkEnabled_eq_some h with ⟨r, h⟩ | ⟨f, h, -⟩ <;> cases h

/-- With the enables met and the operand read, EXEC is its end. -/
theorem exec_of_source {i : Instr} {s : State} {src : List Dword} (he : Enabled (instrVLen i) s)
    (hs : sourceOf i s = .ok src) :
    exec i s = if unmaskedSignal i s src then raiseSimd s else .next (committed i s src) := by
  simp only [exec_eq_execForm, execForm, (checkEnabled_eq_none_iff _ _).2 he, hs, finish_eq]

/-! ## The operand read -/

theorem pageCodes_nil_iff (rs : List (Except Deny Byte)) :
    pageCodes rs = [] ↔ ∀ c, Except.error (.page c) ∉ rs := by
  induction rs with
  | nil => simp [pageCodes]
  | cons r rs ih =>
    rcases r with (_ | c) | b
    · simpa [pageCodes] using ih
    · refine iff_of_false (by simp [pageCodes]) fun h => h c (by simp)
    · simpa [pageCodes] using ih

theorem someNonCanonical_iff (rs : List (Except Deny Byte)) :
    someNonCanonical rs = true ↔ Except.error .nonCanonical ∈ rs := by
  induction rs with
  | nil => simp [someNonCanonical]
  | cons r rs ih =>
    rcases r with (_ | c) | b
    · simp [someNonCanonical]
    · simpa [someNonCanonical] using ih
    · simpa [someNonCanonical] using ih

theorem mem_operandReads {s : State} {addr : Qword} {n : Nat} {wanted : Nat → Bool} {d : Deny} :
    Except.error d ∈ operandReads s addr n wanted ↔
      ∃ i < n, wanted i = true ∧ readByte s .read (addr + BitVec.ofNat 64 i) = .error d := by
  simp only [operandReads, List.mem_map, List.mem_range]
  refine exists_congr fun i => and_congr_right fun _ => ?_
  cases h : wanted i <;> simp

/-- A read that succeeds: every wanted byte is there. -/
theorem readOperand_ok {s : State} {ss : Bool} {addr : Qword} {n : Nat} {wanted : Nat → Bool} {bs : List Byte}
    (h : readOperand s ss addr n wanted = .ok bs) :
    bs = (operandReads s addr n wanted).map byteOrZero ∧
      ∀ i < n, wanted i = true → readByte s .read (addr + BitVec.ofNat 64 i) = .ok (bs.getD i 0) := by
  have hbs : bs = (operandReads s addr n wanted).map byteOrZero ∧ someNonCanonical (operandReads s addr n wanted) = false ∧
      pageCodes (operandReads s addr n wanted) = [] := by
    simp only [readOperand] at h
    split_ifs at h with h1 h2 h3
    · cases h; exact ⟨rfl, by simpa using h1, by simpa using h2⟩
    · split at h
      · cases h
      · cases h; exact ⟨rfl, by simpa using h1, by simpa using h2⟩
  refine ⟨hbs.1, fun i hi hw => ?_⟩
  have hget : bs.getD i 0 = byteOrZero (readByte s .read (addr + BitVec.ofNat 64 i)) := by
    rw [hbs.1]; simp [operandReads, hi, hw, List.getD_eq_getElem?_getD]
  rcases hr : readByte s .read (addr + BitVec.ofNat 64 i) with (_ | c) | b
  · have := mem_operandReads.2 ⟨i, hi, hw, hr⟩
    rw [← someNonCanonical_iff, hbs.2.1] at this; cases this
  · exact absurd (mem_operandReads.2 ⟨i, hi, hw, hr⟩) ((pageCodes_nil_iff _).1 hbs.2.2 c)
  · rw [hget, hr, byteOrZero]

/-- A read of readable bytes succeeds unless alignment checking stops it. -/
theorem readOperand_of_readable {s : State} {ss : Bool} {addr : Qword} {n : Nat} {wanted : Nat → Bool}
    (hr : ∀ i < n, wanted i = true → ∃ b, readByte s .read (addr + BitVec.ofNat 64 i) = .ok b)
    (ha : (∀ i < n, wanted i = false) ∨ alignmentStop s addr n = none) :
    readOperand s ss addr n wanted = .ok ((operandReads s addr n wanted).map byteOrZero) := by
  have h1 : someNonCanonical (operandReads s addr n wanted) = false := by
    rw [Bool.eq_false_iff, ne_eq, someNonCanonical_iff, mem_operandReads]
    rintro ⟨i, hi, hw, h⟩
    obtain ⟨b, hb⟩ := hr i hi hw
    rw [hb] at h; cases h
  have h2 : pageCodes (operandReads s addr n wanted) = [] := by
    rw [pageCodes_nil_iff]
    rintro c h
    obtain ⟨i, hi, hw, h⟩ := mem_operandReads.1 h
    obtain ⟨b, hb⟩ := hr i hi hw
    rw [hb] at h; cases h
  simp only [readOperand, h1, h2]
  rcases ha with ha | ha
  · have : ((List.range n).filter wanted).isEmpty = true := by simpa using ha
    simp [this]
  · simp [ha]

/-- A read that fails refuses, or raises an exception that records the state as it was or after one draw. -/
theorem readOperand_error {s : State} {ss : Bool} {addr : Qword} {n : Nat} {wanted : Nat → Bool}
    {o : Host.Outcome State Fault Refusal} (h : readOperand s ss addr n wanted = .error o) :
    o = .refused .alignmentChecked ∨
      ∃ f, o = .fault f ∧ (stateAfter f = s ∨ stateAfter f = drawn s) ∧ 12 ≤ vectorOf f ∧ vectorOf f ≤ 17 := by
  simp only [readOperand, raisePage, raise, alignmentStop] at h
  split_ifs at h <;> simp only [Except.error.injEq] at h <;> subst h <;> simp [stateAfter, vectorOf]

theorem readOperand_ne_next {s : State} {ss : Bool} {addr : Qword} {n : Nat} {wanted : Nat → Bool} {t : State} :
    readOperand s ss addr n wanted ≠ .error (.next t) := by
  intro h
  rcases readOperand_error h with h | ⟨f, h, -⟩ <;> cases h

theorem sourceOf_error {i : Instr} {s : State} {o : Host.Outcome State Fault Refusal} (h : sourceOf i s = .error o) :
    o = .refused .alignmentChecked ∨
      ∃ f, o = .fault f ∧ (stateAfter f = s ∨ stateAfter f = drawn s) ∧ 12 ≤ vectorOf f ∧ vectorOf f ≤ 17 := by
  cases i <;> simp only [sourceOf, memSource, bcstSource, reduceCtorEq] at h <;>
    (split at h <;> first | (cases h; exact readOperand_error (by assumption)) | cases h)

theorem sourceOf_ne_next {i : Instr} {s t : State} : sourceOf i s ≠ .error (.next t) := by
  intro h
  rcases sourceOf_error h with h | ⟨f, h, -⟩ <;> cases h

/-- Everything that a completed instruction can be. -/
theorem exec_eq_next_iff {i : Instr} {s t : State} :
    exec i s = .next t ↔
      Enabled (instrVLen i) s ∧
        ∃ src, sourceOf i s = .ok src ∧ unmaskedSignal i s src = false ∧ t = committed i s src := by
  constructor
  · intro h
    simp only [exec_eq_execForm, execForm] at h
    split at h
    · next o ho => subst h; exact absurd ho checkEnabled_ne_next
    · next hn =>
      refine ⟨(checkEnabled_eq_none_iff _ _).1 hn, ?_⟩
      split at h
      · next o ho => subst h; exact absurd ho sourceOf_ne_next
      · next src hsrc =>
        rw [finish_eq] at h
        split at h
        · exact absurd h (raiseSimd_ne_next _ _)
        · next hu => cases h; exact ⟨src, hsrc, by simpa using hu, rfl⟩
  · rintro ⟨he, src, hs, hu, rfl⟩
    rw [exec_of_source he hs, hu]; simp

/-! ## One step -/

/-- A fetch that fails refuses, or raises an exception that records the state as it was or after one draw. -/
theorem fetchFails_cases (s : State) (d : Deny) :
    fetchFails s d = .refused .fetchUnreadable ∨
      ∃ f, fetchFails s d = .fault f ∧ (stateAfter f = s ∨ stateAfter f = drawn s) ∧ (vectorOf f = 13 ∨ vectorOf f = 14) := by
  unfold fetchFails raisePage raise
  split
  · cases d <;> simp [stateAfter, vectorOf]
  · exact .inl rfl

/-- A step that ends before the instruction runs refuses, or raises an exception that records the state as it was or after one
draw. -/
theorem fetchDecode_stop {s : State} {o : Host.Outcome State Fault Refusal} (h : fetchDecode s = .stop o) :
    (∃ r, o = .refused r) ∨
      ∃ f, o = .fault f ∧ (stateAfter f = s ∨ stateAfter f = drawn s) ∧
        (vectorOf f = 6 ∨ vectorOf f = 13 ∨ vectorOf f = 14) := by
  unfold fetchDecode at h
  split at h
  · cases h; exact .inl ⟨_, rfl⟩
  · split at h
    · split at h
      · cases h
      · cases h; exact .inl ⟨_, rfl⟩
    · cases h; exact .inr ⟨_, rfl, .inl rfl, .inl rfl⟩
    · split at h
      · cases h
        rcases fetchFails_cases s ‹Deny› with h | ⟨f, h, hs, hv⟩
        · exact .inl ⟨_, h⟩
        · exact .inr ⟨f, h, hs, .inr hv⟩
      · cases h; exact .inl ⟨_, rfl⟩

/-- A step that goes on ran a decoded instruction. -/
theorem step_eq_next {s t : State} (h : step s = .next t) : ∃ i, fetchDecode s = .run i ∧ exec i s = .next t := by
  unfold step at h
  split at h
  · next i hi => exact ⟨i, hi, h⟩
  · next o ho =>
    subst h
    rcases fetchDecode_stop ho with ⟨r, h⟩ | ⟨f, h, -⟩ <;> cases h

/-- What the fetch of an instruction to run means. -/
theorem fetchDecode_run {s : State} {i : Instr} (h : fetchDecode s = .run i) :
    s.mode = .long64 ∧ (∃ rest, decode (fetchWindow s).1 = .ok i rest) ∧ s.pc.toNat + instrLength i < 2 ^ 64 := by
  simp only [fetchDecode] at h
  split_ifs at h with hm
  split at h
  · next j rest hd =>
    split_ifs at h with hl
    cases h
    exact ⟨by simpa using hm, ⟨rest, hd⟩, hl⟩
  · cases h
  · split at h <;> cases h

end Sys2Proof.Machine
end

