-- ==== Sys2Proof/Laws/Forms.lean ====
section
/-! SUPPORT. The forms as families (regForm, memForm, bcstForm), and what the shared parts of a meaning depend on. -/

namespace Sys2Proof.Machine

/-! ## The parts of a form -/

@[simp] theorem instrVLen_regForm (v p m d s) : instrVLen (regForm v p m d s) = v := by cases v <;> rfl
@[simp] theorem instrVLen_memForm (v p m d s) : instrVLen (memForm v p m d s) = v := by cases v <;> rfl
@[simp] theorem instrVLen_bcstForm (v p m d s) : instrVLen (bcstForm v p m d s) = v := by cases v <;> rfl
@[simp] theorem instrSae_regForm (v p m d s) : instrSae (regForm v p m d s) = false := by cases v <;> rfl
@[simp] theorem instrSae_memForm (v p m d s) : instrSae (memForm v p m d s) = false := by cases v <;> rfl
@[simp] theorem instrSae_bcstForm (v p m d s) : instrSae (bcstForm v p m d s) = false := by cases v <;> rfl
@[simp] theorem instrMask_regForm (v p m d s) : instrMask (regForm v p m d s) = m := by cases v <;> rfl
@[simp] theorem instrMask_memForm (v p m d s) : instrMask (memForm v p m d s) = m := by cases v <;> rfl
@[simp] theorem instrMask_bcstForm (v p m d s) : instrMask (bcstForm v p m d s) = m := by cases v <;> rfl
@[simp] theorem instrDst_regForm (v p m d s) : instrDst (regForm v p m d s) = d := by cases v <;> rfl
@[simp] theorem instrDst_memForm (v p m d s) : instrDst (memForm v p m d s) = d := by cases v <;> rfl
@[simp] theorem instrDst_bcstForm (v p m d s) : instrDst (bcstForm v p m d s) = d := by cases v <;> rfl
theorem sourceOf_regForm (v p m d r s) : sourceOf (regForm v p m d r) s = .ok (regSource v s r) := by cases v <;> rfl
theorem sourceOf_memForm (v p m d a s) : sourceOf (memForm v p m d a) s = memSource v s p m a := by cases v <;> rfl
theorem sourceOf_bcstForm (v p m d a s) : sourceOf (bcstForm v p m d a) s = bcstSource v s p m a := by cases v <;> rfl

/-! ## Registers -/

theorem readVec_writeVec_same (s : State) (r : VReg) (v : Vec) : readVec (writeVec s r v) r = v := by
  simp [readVec, writeVec]

theorem readVec_writeVec_other (s : State) {r q : VReg} (v : Vec) (h : q ≠ r) : readVec (writeVec s r v) q = readVec s q := by
  simp only [readVec, writeVec, Fin.getElem_fin]
  rw [Vector.getElem_set_ne]
  intro h'; exact h (Fin.ext h'.symm)

theorem writeVec_comm (s : State) {a b : VReg} (x y : Vec) (h : a ≠ b) : writeVec (writeVec s a x) b y = writeVec (writeVec s b y) a x := by
  simp only [writeVec]; congr 1
  apply Vector.ext; intro i hi
  have : a.val ≠ b.val := fun h' => h (Fin.ext h')
  simp only [Vector.getElem_set]
  split_ifs <;> simp_all

theorem readMask_set (s : State) (r : KReg) (y : Qword) (q : KReg) : readMask { s with k := s.k.set r y } q = if q = r then y else readMask s q := by
  simp only [readMask, Fin.getElem_fin, Vector.getElem_set]
  split_ifs with a b b
  · rfl
  · exact absurd (Fin.ext a.symm) b
  · exact absurd (congrArg Fin.val b.symm) a
  · rfl

/-! ## Flags -/

/-- No unmasked signal: each signal is masked. -/
theorem unmasked_iff (x : Dword) (ie pe : Bool) : unmasked x ie pe = true ↔ ¬((ie = true → mxIM x = true) ∧ (pe = true → mxPM x = true)) := by
  unfold unmasked
  generalize mxIM x = c
  generalize mxPM x = d
  revert ie pe c d; decide

theorem mxIE_orFlags (x ie pe) : mxIE (orFlags x ie pe) = (mxIE x || ie) := by
  unfold mxIE; rw [orFlags_getLsbD]; simp

theorem mxPE_orFlags (x ie pe) : mxPE (orFlags x ie pe) = (mxPE x || pe) := by
  unfold mxPE; rw [orFlags_getLsbD]; simp

/-! ## Source elements -/

theorem regSource_getD {v s r j} (h : j < lanesOf v) : (regSource v s r).getD j 0 = elem32 (readVec s r) j := by
  simp [regSource, h, List.getD_eq_getElem?_getD]

/-- An accessed byte that can be read is the byte of the operand. -/
theorem operandReads_getD {s addr n wanted k b} (hk : k < n) (hw : wanted k = true) (h : readByte s .read (addr + BitVec.ofNat 64 k) = .ok b) :
   ((operandReads s addr n wanted).map byteOrZero).getD k 0 = b := by
  simp [operandReads, hk, hw, h, byteOrZero, List.getD_eq_getElem?_getD]

theorem someActive_of_laneActive {s m v j} (hj : j < lanesOf v) (h : laneActive s m j = true) : someActive s m v = true := by
  simp only [someActive, List.any_eq_true, List.mem_range]; exact ⟨j, hj, h⟩

/-! ## What the results depend on -/

/-- The lanes depend on the activity, the old elements of inactive lanes, the source elements of active ones and DAZ. -/
theorem laneResults_congr {v s s' m dst} {src src' : List Dword} (ha : ∀ j < lanesOf v, laneActive s' m j = laneActive s m j)
   (ho : ∀ j < lanesOf v, laneActive s m j = false → elem64 (readVec s' dst) j = elem64 (readVec s dst) j)
   (hs : ∀ j < lanesOf v, laneActive s m j = true → src'.getD j 0 = src.getD j 0) (hd : mxDAZ s'.mxcsr = mxDAZ s.mxcsr) :
   laneResults v s' m dst src' = laneResults v s m dst src := by
  unfold laneResults
  refine List.map_congr_left fun j hj => ?_
  have hj := List.mem_range.1 hj
  rw [ha j hj, hd]
  cases h : laneActive s m j
  · rw [ho j hj h]; rfl
  · rw [hs j hj h]; rfl

/-- An operand that was read is read in another state in which its accessed bytes are readable. -/
theorem readOperand_congr {s s' : State} {ss addr n} {w : Nat → Bool} {bs} (h : readOperand s ss addr n w = .ok bs)
   (hr : ∀ k < n, w k = true → ∃ b, readByte s' .read (addr + BitVec.ofNat 64 k) = .ok b)
   (hal : alignmentStop s' addr n = none ∨ alignmentStop s addr n ≠ none) : readOperand s' ss addr n w = .ok ((operandReads s' addr n w).map byteOrZero) := by
  refine readOperand_of_readable hr ?_
  rcases hal with h | h'
  · exact .inr h
  · left
    intro k hk
    by_contra hw
    unfold readOperand at h
    simp only at h
    have hne : ((List.range n).filter w).isEmpty = false := by
      simp; exact ⟨k, hk, by simpa using hw⟩
    rw [hne] at h
    split_ifs at h with a b c
    · exact c
    · split at h
      · cases h
      · next hq => exact h' hq

theorem alignmentStop_none_congr {s s' : State} {addr n} (h1 : alignmentChecking s' = alignmentChecking s) (h2 : s'.params = s.params) :
   alignmentStop s' addr n = none ∨ alignmentStop s addr n ≠ none := by
  by_cases h : alignmentStop s addr n = none
  · left
    unfold alignmentStop at *
    rw [h1, h2]
    split_ifs at * <;> rfl
  · exact .inr h

/-- A byte that can be read does not depend on the draws. -/
theorem readByte_ok_congr {s t : State} (hm : t.mem = s.mem) (hx : t.xlat = s.xlat) {acc a b} (h : readByte s acc a = .ok b) : readByte t acc a = .ok b := by
  unfold readByte at h ⊢
  rw [show xlatLookup t acc a = xlatLookup s acc a by unfold xlatLookup; rw [hx]]
  have : ∀ p, physByte s p = .ok b → physByte t p = .ok b := by
    intro p hp
    unfold physByte at *
    rw [hm]
    generalize s.mem.read p.toNat = o at hp ⊢
    cases o with
    | none => cases hp
    | some b' => exact hp
  generalize xlatLookup s acc a = o at h ⊢
  rcases o with _ | (p | d)
  · simp only at h ⊢
    split_ifs at h ⊢
    exact this _ h
  · exact this _ h
  · cases h

theorem operandReads_congr {s t : State} (hm : t.mem = s.mem) (hx : t.xlat = s.xlat) {ss addr n w bs} (h : readOperand s ss addr n w = .ok bs) : (operandReads t addr n w).map byteOrZero = bs := by
  obtain ⟨h1, h2⟩ := readOperand_ok h
  rw [h1]
  simp only [operandReads, List.map_map]
  refine List.map_congr_left fun k hk => ?_
  have hk := List.mem_range.1 hk
  simp only [Function.comp]
  split_ifs with hw
  · rw [h2 k hk hw, readByte_ok_congr hm hx (h2 k hk hw)]
  · rfl

/-- The stack segment is chosen by the prefix, the operand and a parameter alone. -/
theorem usesStackSegment_congr {s t : State} (hp : t.params = s.params) (p a) : usesStackSegment t p a = usesStackSegment s p a := by
  unfold usesStackSegment; rw [hp]

/-- Where overrides without a base are ignored, all of them leave the operand in one segment. -/
theorem usesStackSegment_of_ignored {s : State} {p p' : Pfx} {g g' : Seg} (h : s.params.segOverrideIgnored = true) (hp : p.seg = some g)
    (hp' : p'.seg = some g') (hg : segHasBase g = false) (hg' : segHasBase g' = false) (a : MemOperand) :
    usesStackSegment s p a = usesStackSegment s p' a := by
  simp [usesStackSegment, hp, hp', h, hg, hg']

/-- The source elements depend on what the address and the accessed bytes depend on. -/
theorem sourceOf_congr {i} {s t : State} {src} (hm : t.mem = s.mem) (hx : t.xlat = s.xlat) (hz : t.zmm = s.zmm) (hg : t.gpr = s.gpr) (hpc : t.pc = s.pc)
    (hb : t.fsBase = s.fsBase ∧ t.gsBase = s.gsBase ∧ t.csBase = s.csBase ∧ t.mode = s.mode) (hp : t.params = s.params)
    (hk : ∀ j < lanesOf (instrVLen i), laneActive t (instrMask i) j = laneActive s (instrMask i) j)
    (ha : ∀ addr n, alignmentStop t addr n = none ∨ alignmentStop s addr n ≠ none)
    (h : sourceOf i s = .ok src) : sourceOf i t = .ok src := by
  obtain ⟨b1, b2, b3, b4⟩ := hb
  have haddr : ∀ p n a, operandAddress t p n a = operandAddress s p n a := by
    intro p n a
    unfold operandAddress segBase effectiveAddress baseValue indexValue readGpr
    simp only [b1, b2, b3, b4, hg, hpc]
  have hreg : ∀ v r, regSource v t r = regSource v s r := by intro v r; unfold regSource readVec; rw [hz]
  have hread : ∀ {ss addr n w w' bs}, (∀ k < n, w' k = w k) → readOperand s ss addr n w = .ok bs → readOperand t ss addr n w' = .ok bs := by
    intro ss addr n w w' bs hw h
    have hww : operandReads t addr n w' = operandReads t addr n w := by
      unfold operandReads; exact List.map_congr_left fun k hk => by rw [hw k (List.mem_range.1 hk)]
    have := readOperand_congr (s' := t) (w := w) h (fun k hk hwk => ⟨_, readByte_ok_congr hm hx ((readOperand_ok h).2 k hk hwk)⟩) (ha _ _)
    rw [operandReads_congr hm hx h] at this
    rw [← this]
    unfold readOperand
    simp only
    rw [hww, List.filter_congr (fun k hk => hw k (List.mem_range.1 hk))]
  have hmem : ∀ v p m a src, (∀ j < lanesOf v, laneActive t m j = laneActive s m j) → memSource v s p m a = .ok src → memSource v t p m a = .ok src := by
    intro v p m a src hact h
    unfold memSource at *
    split at h
    · next bs hbs =>
      rw [haddr, usesStackSegment_congr hp, hread (w' := fullWanted t m) ?_ hbs]
      · exact h
      · intro k hk; unfold fullWanted; rw [hp, hact _ (by unfold fullBytes at hk; omega)]
    · cases h
  have hbc : ∀ v p m a src, (∀ j < lanesOf v, laneActive t m j = laneActive s m j) → bcstSource v s p m a = .ok src → bcstSource v t p m a = .ok src := by
    intro v p m a src hact h
    unfold bcstSource at *
    split at h
    · next bs hbs =>
      rw [haddr, usesStackSegment_congr hp, hread (w' := bcstWanted v t m) ?_ hbs]
      · exact h
      · intro k hk; unfold bcstWanted; rw [hp]
        have : someActive t m v = someActive s m v := by
          unfold someActive
          rw [Bool.eq_iff_iff, List.any_eq_true, List.any_eq_true]
          constructor <;> rintro ⟨j, hj, h⟩ <;> refine ⟨j, hj, ?_⟩
          · rw [← hact j (List.mem_range.1 hj)]; exact h
          · rw [hact j (List.mem_range.1 hj)]; exact h
        rw [this]
    · cases h
  cases i with
  | reg128 p m d r => rw [show sourceOf (.reg128 p m d r) t = .ok (regSource .v128 t r) from rfl, hreg]; exact h
  | mem128 p m d a => exact hmem .v128 p m a src hk h
  | bcst128 p m d a => exact hbc .v128 p m a src hk h
  | reg256 p m d r => rw [show sourceOf (.reg256 p m d r) t = .ok (regSource .v256 t r) from rfl, hreg]; exact h
  | mem256 p m d a => exact hmem .v256 p m a src hk h
  | bcst256 p m d a => exact hbc .v256 p m a src hk h
  | reg512 p m d r => rw [show sourceOf (.reg512 p m d r) t = .ok (regSource .v512 t r) from rfl, hreg]; exact h
  | mem512 p m d a => exact hmem .v512 p m a src hk h
  | bcst512 p m d a => exact hbc .v512 p m a src hk h
  | sae512 p m d r => rw [show sourceOf (.sae512 p m d r) t = .ok (regSource .v512 t r) from rfl, hreg]; exact h

/-! ## Faults -/

/-- With the enables met, EXEC answers what the operand read answers. -/
theorem exec_of_error {i s o} (he : Enabled (instrVLen i) s) (h : sourceOf i s = .error o) : exec i s = o := by
  simp only [exec_eq_execForm, execForm, (checkEnabled_eq_none_iff _ _).2 he, h]

theorem checkEnabled_eq_fault {v s f} (h : checkEnabled v s = some (.fault f)) : stateAfter f = s ∧ (vectorOf f = 6 ∨ vectorOf f = 7) ∧ ∀ a, f ≠ .ud .simdFp a := by
  unfold checkEnabled premiseFails raise at h
  split_ifs at h <;> simp only [Option.some.injEq, Host.Outcome.fault.injEq, reduceCtorEq] at h <;> subst h <;> simp [stateAfter, vectorOf]

theorem raiseSimd_eq_fault {s f} (h : raiseSimd s = .fault f) : stateAfter f = drawnFlags s ∧ (f = .xm (drawnFlags s) ∨ f = .ud .simdFp (drawnFlags s)) := by
  unfold raiseSimd raise at h
  split_ifs at h <;> cases h <;> simp [stateAfter]

/-- Where a fault of a form comes from. -/
theorem exec_eq_fault {i s f} (h : exec i s = .fault f) :
   checkEnabled (instrVLen i) s = some (.fault f) ∨ sourceOf i s = .error (.fault f) ∨ (instrSae i = false ∧ raiseSimd s = .fault f) := by
  simp only [exec_eq_execForm, execForm] at h
  split at h
  · next o ho => subst h; exact .inl ho
  · split at h
    · next o ho => subst h; exact .inr (.inl ho)
    · next src hsrc =>
      rw [finish_eq] at h
      split_ifs at h with hu
      refine .inr (.inr ⟨?_, h⟩)
      simp [unmaskedSignal] at hu; exact hu.1

/-! ## Memory -/

theorem add_ofNat_inj (a : Qword) {i j : Nat} (hi : i < 2^64) (hj : j < 2^64) (h : (a + BitVec.ofNat 64 i).toNat = (a + BitVec.ofNat 64 j).toNat) : i = j := by
  have := BitVec.eq_of_toNat_eq h
  have h2 : BitVec.ofNat 64 i = BitVec.ofNat 64 j := by simpa using this
  have := congrArg BitVec.toNat h2
  rwa [BitVec.toNat_ofNat, BitVec.toNat_ofNat, Nat.mod_eq_of_lt hi, Nat.mod_eq_of_lt hj] at this

theorem add_succ_ofNat (a : Qword) (k : Nat) : a + BitVec.ofNat 64 (k+1) = a + 1 + BitVec.ofNat 64 k := by
  rw [Nat.add_comm k 1, BitVec.ofNat_add, ← BitVec.add_assoc]; rfl

/-- Stored bytes read back. -/
theorem Memory.read_writeBytes (m : Memory) (a : Qword) (bs : List Byte) (h : bs.length ≤ 2^64) : ∀ k < bs.length, (m.writeBytes a bs).read (a + BitVec.ofNat 64 k).toNat = some (bs.getD k 0) := by
  induction bs generalizing m a with
  | nil => intro k hk; simp at hk
  | cons b bs ih =>
    simp only [List.length_cons] at h
    intro k hk
    cases k with
    | zero =>
      rw [Memory.writeBytes, Memory.read_writeBytes_other]
      · simp [Memory.read_write_same]
      · intro i hi h0
        rw [← add_succ_ofNat] at h0
        have := add_ofNat_inj a (i := 0) (j := i+1) (by omega) (by omega) h0
        omega
    | succ k =>
      rw [Memory.writeBytes, add_succ_ofNat]
      have := ih (m.write a.toNat b) (a+1) (by omega) k (by simpa using hk)
      rw [this]; rfl

end Sys2Proof.Machine
end

