-- ==== Sys2Proof/Laws/PerInstr.lean ====
section
/-! SUPPORT. Facts about every instruction as syntax, one lemma for each constructor. -/

namespace Sys2Proof.Laws.Length

/-- The encoder writes as many bytes as `instrLength` says (30_encoding R71). -/
def Statement (i : Instr) : Prop := (encode i).length = Machine.instrLength i

theorem reg128 (p : Pfx) (m : Masking) (dst : VReg) (src : VReg) : Statement (.reg128 p m dst src) :=
  encodeReg_length ..

theorem mem128 (p : Pfx) (m : Masking) (dst : VReg) (src : MemOperand) : Statement (.mem128 p m dst src) :=
  encodeMem_length ..

theorem bcst128 (p : Pfx) (m : Masking) (dst : VReg) (src : MemOperand) : Statement (.bcst128 p m dst src) :=
  encodeMem_length ..

theorem reg256 (p : Pfx) (m : Masking) (dst : VReg) (src : VReg) : Statement (.reg256 p m dst src) :=
  encodeReg_length ..

theorem mem256 (p : Pfx) (m : Masking) (dst : VReg) (src : MemOperand) : Statement (.mem256 p m dst src) :=
  encodeMem_length ..

theorem bcst256 (p : Pfx) (m : Masking) (dst : VReg) (src : MemOperand) : Statement (.bcst256 p m dst src) :=
  encodeMem_length ..

theorem reg512 (p : Pfx) (m : Masking) (dst : VReg) (src : VReg) : Statement (.reg512 p m dst src) :=
  encodeReg_length ..

theorem mem512 (p : Pfx) (m : Masking) (dst : VReg) (src : MemOperand) : Statement (.mem512 p m dst src) :=
  encodeMem_length ..

theorem bcst512 (p : Pfx) (m : Masking) (dst : VReg) (src : MemOperand) : Statement (.bcst512 p m dst src) :=
  encodeMem_length ..

theorem sae512 (p : Pfx) (m : Masking) (dst : VReg) (src : VReg) : Statement (.sae512 p m dst src) :=
  encodeReg_length ..

/-- Every instruction. -/
theorem all (i : Instr) : Statement i := by
  cases i with
  | reg128 p m dst src => exact reg128 p m dst src
  | mem128 p m dst src => exact mem128 p m dst src
  | bcst128 p m dst src => exact bcst128 p m dst src
  | reg256 p m dst src => exact reg256 p m dst src
  | mem256 p m dst src => exact mem256 p m dst src
  | bcst256 p m dst src => exact bcst256 p m dst src
  | reg512 p m dst src => exact reg512 p m dst src
  | mem512 p m dst src => exact mem512 p m dst src
  | bcst512 p m dst src => exact bcst512 p m dst src
  | sae512 p m dst src => exact sae512 p m dst src

end Sys2Proof.Laws.Length
end

