-- ==== Sys2Proof/Laws/Fetch.lean ====
section
/-! SUPPORT. Fetching: bytes that lie at pc are what the window begins with; the host's table words. -/

namespace Sys2Proof.Machine

/-- Bytes that can be fetched are the first bytes of the window. -/
theorem fetchFrom_of_readable {s : State} {n a} {bs : List Byte} (hn : bs.length ≤ n) (h : ∀ k < bs.length, readByte s .fetch (a + BitVec.ofNat 64 k) = .ok (bs.getD k 0)) :
  ∃ tail, (fetchFrom s n a).1 = bs ++ tail := by
  induction bs generalizing n a with
  | nil => exact ⟨_, rfl⟩
  | cons b bs ih =>
    cases n with
    | zero => simp at hn
    | succ n =>
      have h0 := h 0 (by simp)
      simp only [BitVec.ofNat_eq_ofNat, BitVec.add_zero, List.getD_cons_zero] at h0
      obtain ⟨tail, ht⟩ := ih (n := n) (a := a + 1) (by simpa using hn) (fun k hk => by
        have := h (k+1) (by simpa using hk)
        rw [show a + BitVec.ofNat 64 (k+1) = a + 1 + BitVec.ofNat 64 k by
          rw [Nat.add_comm k 1, BitVec.ofNat_add, ← BitVec.add_assoc]; rfl] at this
        simpa using this)
      refine ⟨tail, ?_⟩
      simp only [fetchFrom, h0, ht, List.cons_append]

/-- The shortest instruction takes 6 bytes, the longest 13 (30_encoding R71). -/
theorem instrLength_bounds (i) : 6 ≤ instrLength i ∧ instrLength i ≤ 13 := by
  cases i <;> simp only [instrLength, regLength, memLength] <;> rename_i p _ _ a <;>
   (have h1 := pfxLength_le p; first | (have h2 := memOperandLength_le a; omega) | omega)

/-- A byte of a table word. -/
theorem bytesWord_byte (bs : List Byte) (i : Nat) : BitVec.ofNat 8 (bytesWord bs >>> (8*i)) = bs.getD i 0 := by
  induction bs generalizing i with
  | nil => simp [bytesWord]
  | cons b bs ih =>
    have hb := b.isLt
    cases i with
    | zero =>
      apply BitVec.eq_of_toNat_eq
      simp [bytesWord]; exact hb
    | succ i =>
      rw [List.getD_cons_succ, ← ih, bytesWord, show 8*(i+1) = 8 + 8*i by omega, Nat.shiftRight_add]
      congr 2
      rw [Nat.shiftRight_eq_div_pow]; omega

theorem bytesWord_lt (bs : List Byte) : bytesWord bs < 2 ^ (8 * bs.length) := by
  induction bs with
  | nil => simp [bytesWord]
  | cons b bs ih =>
    have hb := b.isLt
    rw [bytesWord, List.length_cons, show 8 * (bs.length+1) = 8 + 8 * bs.length by omega, Nat.pow_add]
    omega

/-- The bytes of a table word made from bytes are those bytes. -/
theorem wordBytes_getD (bs : List Byte) (k : Nat) (hk : k < 15) : (wordBytes (8 * bs.length) (bytesWord bs)).getD k 0 = bs.getD k 0 := by
  rw [wordBytes, Nat.mod_eq_of_lt (bytesWord_lt bs), List.getD_eq_getElem?_getD, List.getElem?_map, List.getElem?_range (by unfold windowBytes; omega)]
  simp only [Option.map_some, Option.getD_some, bytesWord_byte]

end Sys2Proof.Machine
end

