-- ==== Sys2Proof/Tests/Slice0.lean ====
section
/-! SUPPORT. Tests: ill-formed terms, words written out from the spec's encodings, one-step tests from 95_test_vectors, and for
every statement with hypotheses a concrete case that meets them. -/

open Sys2Proof Sys2Proof.Machine

namespace Sys2Proof.Tests

set_option exponentiation.threshold 1024
set_option maxRecDepth 100000

/-! ## Helpers -/

/-- Doublewords packed from bit 0 upwards. -/
def packDwords : List Dword → Vec
  | [] => 0
  | x :: xs => (packDwords xs <<< 32) ||| x.setWidth 512

/-- A vector register of ones. -/
def ones : Vec := BitVec.allOnes 512

/-- The launch state of 95_test_vectors: pc = 0x400000, CR4.OSXMMEXCPT = 1, MXCSR = 0x1F80, the rest 0. -/
def s0 : State := { launch State.reset with pc := 0x400000, cr4 := 0x40400, gpr := Vector.replicate 16 0 }

/-- `s0` with zmm1 of ones and the source elements of register 2. -/
def srcState (l : List Dword) : State := writeVec (writeVec s0 1 ones) 2 (packDwords l)

/-- `s0` with a general register. -/
def gprState (r : Gpr) (x : Qword) : State := { s0 with gpr := s0.gpr.set r x }

/-- `s0` with RAX = a and bytes at b. -/
def memState (a b : Qword) (bs : List Byte) : State := memWrite (gprState 0 a) b bs

/-- `s0` with the bytes at pc. -/
def codeState (bs : List Byte) : State := memWrite s0 0x400000 bs

/-- No prefix. -/
def np : Pfx := {}

/-- No writemask. -/
def nm : Masking := ⟨0, false⟩

/-- [rax]. -/
def atRax : MemOperand := .base 0 .none

/-- The next state. -/
def next? (o : Host.Outcome State Fault Refusal) : Option State :=
  match o with
  | .next t => some t
  | .fault _ => none
  | .refused _ => none

/-- The fault. -/
def fault? (o : Host.Outcome State Fault Refusal) : Option Fault :=
  match o with
  | .next _ => none
  | .fault f => some f
  | .refused _ => none

/-- What T1 to T18 look at: a register, MXCSR and pc after a completed instruction. -/
def seen (o : Host.Outcome State Fault Refusal) (r : VReg) : Option (Vec × Dword × Qword) :=
  (next? o).map fun t => (readVec t r, t.mxcsr, t.pc)

/-- The vector number of the fault, and that nothing but MXCSR bits 0 and 5 changed. -/
def seenFault (o : Host.Outcome State Fault Refusal) (s : State) (r : VReg) : Option (Nat × Bool) :=
  (fault? o).map fun f => (vectorOf f, readVec (stateAfter f) r == readVec s r && (stateAfter f).pc == s.pc)

theorem exists_next {o : Host.Outcome State Fault Refusal} (h : (next? o).isSome = true) : ∃ t, o = .next t := by
  cases o <;> simp_all [next?]

theorem exists_fault {o : Host.Outcome State Fault Refusal} (h : (fault? o).isSome = true) : ∃ f, o = .fault f := by
  cases o <;> simp_all [fault?]

/-! ## WellFormed: one ill-formed term for each check -/

theorem test_wf_zeroing_needs_mask : wellFormed (.reg128 np ⟨0, true⟩ 1 2) = false := by decide
theorem test_wf_base_needs_sib : wellFormed (.mem128 np nm 1 (.base 12 .none)) = false := by decide
theorem test_wf_rbp_needs_disp : wellFormed (.mem256 np nm 1 (.base 5 .none)) = false := by decide
theorem test_wf_sib_r13_needs_disp : wellFormed (.bcst512 np nm 1 (.sib 13 none .none)) = false := by decide
theorem test_wf_index_4 : wellFormed (.mem512 np nm 1 (.sib 0 (some ⟨4, 0⟩) .none)) = false := by decide
theorem test_wf_no_base_index_4 : wellFormed (.mem512 np nm 1 (.sibNoBase (some ⟨4, 1⟩) 0)) = false := by decide
theorem test_wf_accepts : wellFormed (.mem512 np ⟨7, false⟩ 30 (.sib 13 (some ⟨14, 3⟩) (.d8 8))) = true := by decide

/-! ## Decoding: words of 95_test_vectors, section 2.2 -/

theorem test_decode_reg128 : decode [0x62, 0xF1, 0x7D, 0x08, 0x7A, 0xCA] = .ok (.reg128 np nm 1 2) [] := by decide
theorem test_decode_reg256 : decode [0x62, 0xF1, 0x7D, 0x28, 0x7A, 0xCA] = .ok (.reg256 np nm 1 2) [] := by decide
theorem test_decode_reg512 : decode [0x62, 0xF1, 0x7D, 0x48, 0x7A, 0xCA] = .ok (.reg512 np nm 1 2) [] := by decide
theorem test_decode_sae512 : decode [0x62, 0xF1, 0x7D, 0x18, 0x7A, 0xCA] = .ok (.sae512 np nm 1 2) [] := by decide
theorem test_decode_mem128 : decode [0x62, 0xF1, 0x7D, 0x08, 0x7A, 0x08] = .ok (.mem128 np nm 1 atRax) [] := by decide
theorem test_decode_mem256 : decode [0x62, 0xF1, 0x7D, 0x28, 0x7A, 0x48, 0x01] = .ok (.mem256 np nm 1 (.base 0 (.d8 1))) [] := by decide
theorem test_decode_mem512 : decode [0x62, 0xF1, 0x7D, 0x48, 0x7A, 0x88, 0xE0, 0xEF, 0xFF, 0xFF] = .ok (.mem512 np nm 1 (.base 0 (.d32 0xFFFFEFE0))) [] := by decide
theorem test_decode_bcst128 : decode [0x62, 0xF1, 0x7D, 0x18, 0x7A, 0x48, 0x7F] = .ok (.bcst128 np nm 1 (.base 0 (.d8 0x7F))) [] := by decide
theorem test_decode_bcst256 : decode [0x62, 0xF1, 0x7D, 0x38, 0x7A, 0x48, 0x80] = .ok (.bcst256 np nm 1 (.base 0 (.d8 0x80))) [] := by decide
theorem test_decode_bcst512 : decode [0x62, 0xF1, 0x7D, 0x58, 0x7A, 0x50, 0x02] = .ok (.bcst512 np nm 2 (.base 0 (.d8 2))) [] := by decide
theorem test_decode_mask_zeroing : decode [0x62, 0xF1, 0x7D, 0xCF, 0x7A, 0xCA] = .ok (.reg512 np ⟨7, true⟩ 1 2) [] := by decide
theorem test_decode_mask_merging : decode [0x62, 0xF1, 0x7D, 0x29, 0x7A, 0xDA] = .ok (.reg256 np ⟨1, false⟩ 3 2) [] := by decide
theorem test_decode_high_registers : decode [0x62, 0x01, 0x7D, 0x48, 0x7A, 0xEE] = .ok (.reg512 np nm 29 30) [] := by decide
theorem test_decode_registers_8_15 : decode [0x62, 0x51, 0x7D, 0x48, 0x7A, 0xC7] = .ok (.reg512 np nm 8 15) [] := by decide
theorem test_decode_registers_16_16 : decode [0x62, 0xA1, 0x7D, 0x48, 0x7A, 0xC0] = .ok (.reg512 np nm 16 16) [] := by decide
theorem test_decode_sib : decode [0x62, 0x81, 0x7D, 0x28, 0x7A, 0x0C, 0x88] = .ok (.mem256 np nm 17 (.sib 8 (some ⟨9, 2⟩) .none)) [] := by decide
theorem test_decode_sib_no_index : decode [0x62, 0xF1, 0x7D, 0x48, 0x7A, 0x4C, 0x24, 0x02] = .ok (.mem512 np nm 1 (.sib 4 none (.d8 2))) [] := by decide
theorem test_decode_sib_no_base : decode [0x62, 0xF1, 0x7D, 0x48, 0x7A, 0x0C, 0x4D, 0x34, 0x12, 0x00, 0x00] = .ok (.mem512 np nm 1 (.sibNoBase (some ⟨1, 1⟩) 0x1234)) [] := by decide
theorem test_decode_rip : decode [0x62, 0xF1, 0x7D, 0x48, 0x7A, 0x0D, 0x10, 0x00, 0x00, 0x00] = .ok (.mem512 np nm 1 (.rip 0x10)) [] := by decide
theorem test_decode_r13_disp8 : decode [0x62, 0xD1, 0x7D, 0x48, 0x7A, 0x4D, 0x00] = .ok (.mem512 np nm 1 (.base 13 (.d8 0))) [] := by decide
theorem test_decode_r12_sib : decode [0x62, 0xD1, 0x7D, 0x48, 0x7A, 0x0C, 0x24] = .ok (.mem512 np nm 1 (.sib 12 none .none)) [] := by decide
theorem test_decode_fs : decode [0x64, 0x62, 0xF1, 0x7D, 0x48, 0x7A, 0x08] = .ok (.mem512 { seg := some .fs } nm 1 atRax) [] := by decide
theorem test_decode_a32 : decode [0x67, 0x62, 0xF1, 0x7D, 0x48, 0x7A, 0x08] = .ok (.mem512 { a32 := true } nm 1 atRax) [] := by decide
theorem test_decode_vvvv : decode [0x62, 0xF1, 0x75, 0x48, 0x7A, 0xCA] = .udVvvv := by decide
theorem test_refused_v_prime : decode [0x62, 0xF1, 0x7D, 0x40, 0x7A, 0xCA] = .reject .vPrime := by decide
theorem test_refused_length : decode [0x62, 0xF1, 0x7D, 0x68, 0x7A, 0xCA] = .reject .reservedLength := by decide
theorem test_refused_zeroing : decode [0x62, 0xF1, 0x7D, 0x88, 0x7A, 0xCA] = .reject .zeroingWithoutMask := by decide
theorem test_refused_p0 : decode [0x62, 0xF9, 0x7D, 0x48, 0x7A, 0xCA] = .reject .p0Reserved := by decide
theorem test_refused_p1 : decode [0x62, 0xF1, 0x79, 0x48, 0x7A, 0xCA] = .reject .p1Fixed := by decide
theorem test_refused_w1 : decode [0x62, 0xF1, 0xFD, 0x48, 0x7A, 0xCA] = .reject .w1 := by decide
theorem test_refused_pp_f3 : decode [0x62, 0xF1, 0x7E, 0x48, 0x7A, 0xCA] = .reject .otherPp := by decide
theorem test_refused_pp_none : decode [0x62, 0xF1, 0x7C, 0x48, 0x7A, 0xCA] = .reject .otherPp := by decide
theorem test_refused_map2 : decode [0x62, 0xF2, 0x7D, 0x48, 0x7A, 0xCA] = .reject .otherMap := by decide
theorem test_refused_opcode : decode [0x62, 0xF1, 0x7D, 0x48, 0x7B, 0xCA] = .reject .otherOpcode := by decide
theorem test_refused_pfx_66 : decode [0x66, 0x62, 0xF1, 0x7D, 0x48, 0x7A, 0xCA] = .reject .operandSizePfx := by decide
theorem test_refused_lock : decode [0xF0, 0x62, 0xF1, 0x7D, 0x48, 0x7A, 0x08] = .reject .lockPfx := by decide
theorem test_refused_rex : decode [0x48, 0x62, 0xF1, 0x7D, 0x48, 0x7A, 0xCA] = .reject .rexPfx := by decide
theorem test_refused_vvvv_and_v_prime : decode [0x62, 0xF1, 0x75, 0x40, 0x7A, 0xCA] = .reject .vPrime := by decide
theorem test_table_word_reg128 : decodeTableWord 48 0xCA7A087DF162 = some (.reg128 np nm 1 2) := by decide
theorem test_encode_mem512 :
    encode (.mem512 np ⟨7, false⟩ 30 (.sib 13 (some ⟨14, 3⟩) (.d8 8))) = [0x62, 0x01, 0x7D, 0x4F, 0x7A, 0x74, 0xF5, 0x08] := by decide

/-! ## One element (95_test_vectors, section 2.1) -/

theorem test_cvtt_exact :
    cvtt 0x00000000 false = ⟨0, false, false⟩ ∧ cvtt 0x80000000 false = ⟨0, false, false⟩ ∧
    cvtt 0xBF800000 false = ⟨0xFFFFFFFFFFFFFFFF, false, false⟩ ∧ cvtt 0x4996B438 false = ⟨0x12D687, false, false⟩ ∧
    cvtt 0x4B7FFFFF true = ⟨0xFFFFFF, false, false⟩ ∧ cvtt 0xCF000000 false = ⟨0xFFFFFFFF80000000, false, false⟩ ∧
    cvtt 0x5D5E0B6B false = ⟨0x0DE0B6B000000000, false, false⟩ ∧ cvtt 0x5EFFFFFF false = ⟨0x7FFFFF8000000000, false, false⟩ ∧
    cvtt 0xDF000000 false = ⟨0x8000000000000000, false, false⟩ := by decide

theorem test_cvtt_inexact :
    cvtt 0x3FC00000 false = ⟨1, false, true⟩ ∧ cvtt 0xBFC00000 false = ⟨0xFFFFFFFFFFFFFFFF, false, true⟩ ∧
    cvtt 0xC2F6E979 false = ⟨0xFFFFFFFFFFFFFF85, false, true⟩ ∧ cvtt 0x3F7FFFFF false = ⟨0, false, true⟩ ∧
    cvtt 0xBF000000 true = ⟨0, false, true⟩ ∧ cvtt 0x00800000 true = ⟨0, false, true⟩ ∧
    cvtt 0x00000001 false = ⟨0, false, true⟩ ∧ cvtt 0x00000001 true = ⟨0, false, false⟩ ∧
    cvtt 0x4AFFFFFF false = ⟨0x7FFFFF, false, true⟩ := by decide

theorem test_cvtt_invalid :
    cvtt 0x5F000000 false = ⟨0x8000000000000000, true, false⟩ ∧ cvtt 0xDF000001 false = ⟨0x8000000000000000, true, false⟩ ∧
    cvtt 0x7F7FFFFF false = ⟨0x8000000000000000, true, false⟩ ∧ cvtt 0xFF800000 true = ⟨0x8000000000000000, true, false⟩ ∧
    cvtt 0x7FC00000 false = ⟨0x8000000000000000, true, false⟩ ∧ cvtt 0x7F800001 true = ⟨0x8000000000000000, true, false⟩ := by
  decide

/-! ## Addresses (95_test_vectors, section 2.2) -/

theorem test_address_disp8_scaled :
    operandAddress (gprState 0 0x5000) np 8 (.base 0 (.d8 1)) = 0x5008 ∧
    operandAddress (gprState 0 0x5000) np 4 (.base 0 (.d8 0x80)) = 0x4E00 ∧
    operandAddress (gprState 0 0x5000) np 32 (.base 0 (.d8 0xFF)) = 0x4FE0 := by decide

theorem test_address_disp32_unscaled :
    operandAddress (gprState 0 0x5000) np 32 (.base 0 (.d32 4)) = 0x5004 ∧
    operandAddress (gprState 0 0x5000) np 32 (.base 0 (.d32 0xFFFFEFE0)) = 0x3FE0 ∧
    operandAddress (gprState 1 0x800) np 32 (.sibNoBase (some ⟨1, 1⟩) 0x1234) = 0x2234 := by decide

theorem test_address_sib :
    operandAddress { s0 with gpr := (s0.gpr.set 13 0x30000).set 14 0x20 } np 32 (.sib 13 (some ⟨14, 3⟩) (.d8 8)) = 0x30200 := by
  decide

theorem test_address_rip : operandAddress s0 np 32 (.rip 0x10) = 0x40001A := by decide

theorem test_address_fs :
    operandAddress { gprState 0 0x100 with fsBase := 0x7000 } { seg := some .fs } 32 atRax = 0x7100 := by decide

theorem test_address_a32 : operandAddress (gprState 0 0x0000000100002000) { a32 := true } 32 atRax = 0x2000 := by decide

/-! ## Whole instructions (95_test_vectors, section 2.3) -/

theorem test_t1_reg128 :
    seen (exec (.reg128 np nm 1 2) (srcState [0x40200000, 0xBFC00000, 0x7FC00000])) 1 = some (packQwords [2, 0xFFFFFFFFFFFFFFFF], 0x1FA0, 0x400006) := by decide

theorem test_t2_mem128 :
    seen (exec (.mem128 np nm 1 atRax) (memState 0x1000 0x1000 [0x00, 0x00, 0x20, 0x40, 0x00, 0x00, 0xC0, 0xBF])) 1 = some (packQwords [2, 0xFFFFFFFFFFFFFFFF], 0x1FA0, 0x400006) := by decide

theorem test_t3_bcst128 :
    seen (exec (.bcst128 np nm 1 atRax) (memState 0x1000 0x1000 [0x00, 0x00, 0xE0, 0xC0])) 1 = some (packQwords [0xFFFFFFFFFFFFFFF9, 0xFFFFFFFFFFFFFFF9], 0x1F80, 0x400006) := by decide

theorem test_t4_reg256 :
    seen (exec (.reg256 np nm 1 2) (srcState [0x3F800000, 0xBF800000, 0x4E6E6B28, 0x7FC00000])) 1 = some (packQwords [1, 0xFFFFFFFFFFFFFFFF, 0x3B9ACA00, 0x8000000000000000], 0x1F81, 0x400006) := by decide

theorem test_t5_mem256 :
    seen (exec (.mem256 np nm 1 (.base 0 (.d8 1))) (memState 0x1000 0x1010 [0x00, 0x00, 0x80, 0x3F, 0x00, 0x00, 0x80, 0xBF, 0x28, 0x6B, 0x6E, 0x4E, 0x00, 0x00, 0xC0, 0x7F])) 1 = some (packQwords [1, 0xFFFFFFFFFFFFFFFF, 0x3B9ACA00, 0x8000000000000000], 0x1F81, 0x400007) := by decide

theorem test_t6_bcst256_merging :
    seen (exec (.bcst256 np ⟨2, false⟩ 1 atRax) (writeVec { memState 0x1000 0x1000 [0x00, 0x00, 0xC9, 0x42] with k := s0.k.set 2 0x5 } 1
      (packQwords [0xD0, 0xD1, 0xD2, 0xD3, 0xD4, 0xD5, 0xD6, 0xD7]))) 1 = some (packQwords [0x64, 0xD1, 0x64, 0xD3], 0x1FA0, 0x400006) := by decide

theorem test_t7_reg512 :
    seen (exec (.reg512 np nm 1 2) (srcState
      [0x3F800000, 0x42F6E979, 0xC2F6E979, 0x4B7FFFFF, 0x80000000, 0x3F000000, 0xDF000000, 0x5F000000])) 1 = some (packQwords [1, 0x7B, 0xFFFFFFFFFFFFFF85, 0xFFFFFF, 0, 0, 0x8000000000000000, 0x8000000000000000], 0x1FA1, 0x400006) := by decide

/-- P2 of 95_test_vectors, first instruction. -/
theorem test_p2_mem512 :
    seen (exec (.mem512 np nm 1 (.base 0 (.d8 1)))
      (memState 0x10000 0x10020 ([0x00, 0x00, 0x7A, 0x44, 0x00, 0x00, 0x7A, 0xC4, 0x00, 0x00, 0x80, 0x3E, 0x00, 0x00, 0x00, 0x4B] ++
        [0xFF, 0xFF, 0xFF, 0x4A, 0xFF, 0xFF, 0xFF, 0x5E, 0xFF, 0xFF, 0xFF, 0xDE, 0x01, 0x00, 0x00, 0x00]))) 1 =
      some (packQwords [0x3E8, 0xFFFFFFFFFFFFFC18, 0, 0x800000, 0x7FFFFF, 0x7FFFFF8000000000, 0x8000008000000000, 0],
        0x1FA0, 0x400007) := by decide

theorem test_t8_bcst512 :
    seen (exec (.bcst512 np nm 1 (.base 0 (.d8 1))) (memState 0x1000 0x1004 [0xDB, 0x0F, 0x49, 0x40])) 1 = some (packQwords [3, 3, 3, 3, 3, 3, 3, 3], 0x1FA0, 0x400007) := by decide

theorem test_t9_sae512 :
    seen (exec (.sae512 np nm 1 2) (writeMxcsr (srcState [0x7FC00000]) 0x1F00)) 1 = some (packQwords [0x8000000000000000], 0x1F00, 0x400006) := by decide

/-- T10's input as a broadcast: an unmasked invalid. -/
theorem test_t10_unmasked_invalid_bcst512 :
    seenFault (exec (.bcst512 np nm 1 atRax) (writeMxcsr (memState 0x1000 0x1000 [0x00, 0x00, 0xC0, 0x7F]) 0x1F00)) s0 1 =
      some (19, true) := by decide

/-- T11's input as a broadcast: no lane is active. -/
theorem test_t11_no_lane_active_bcst256 :
    seen (exec (.bcst256 np ⟨2, false⟩ 1 atRax) (writeVec (memState 0x1000 0x1000 [0x00, 0x00, 0xC0, 0x7F]) 1 ones)) 1 = some (packQwords [0xFFFFFFFFFFFFFFFF, 0xFFFFFFFFFFFFFFFF, 0xFFFFFFFFFFFFFFFF, 0xFFFFFFFFFFFFFFFF], 0x1F80, 0x400006) := by decide

theorem test_t12_zeroing_mask_above_lanes :
    seen (exec (.reg512 np ⟨1, true⟩ 1 2) ({ srcState (List.replicate 8 0x7FC00000) with k := s0.k.set 1 0x100 })) 1 = some (packQwords [], 0x1F80, 0x400006) := by decide

theorem test_t13_daz :
    seen (exec (.reg256 np nm 1 2) (writeMxcsr (srcState [0x00000001, 0x807FFFFF, 0x00800000, 0x3F000000]) 0x1FC0)) 1 = some (packQwords [], 0x1FE0, 0x400006) := by decide

/-- T14's input from memory: an unmasked precision. -/
theorem test_t14_unmasked_precision_mem128 :
    seenFault (exec (.mem128 np nm 1 atRax)
      (writeMxcsr (memState 0x1000 0x1000 [0x00, 0x00, 0xC0, 0x3F, 0x00, 0x00, 0x80, 0x3F]) 0x0F80)) s0 1 =
      some (19, true) := by decide

/-- T15's input as a broadcast: rounding control is ignored. -/
theorem test_t15_rounding_control_bcst128 :
    seen (exec (.bcst128 np nm 1 atRax) (writeMxcsr (memState 0x1000 0x1000 [0x00, 0x00, 0xC0, 0xBF]) 0x5F80)) 1 = some (packQwords [0xFFFFFFFFFFFFFFFF, 0xFFFFFFFFFFFFFFFF], 0x5FA0, 0x400006) := by decide

theorem test_t17_vvvv : step (codeState [0x62, 0xF1, 0x75, 0x48, 0x7A, 0xCA]) =
    .fault (.ud .vvvv (codeState [0x62, 0xF1, 0x75, 0x48, 0x7A, 0xCA])) := by rfl

theorem test_t18_same_register :
    seen (exec (.reg128 np nm 1 1) (writeVec s0 1 (packQwords [0x4040000040000000]))) 1 = some (packQwords [2, 3], 0x1F80, 0x400006) := by decide

/-- The memory of T19: the last byte of the operand is not mapped. -/
def t19 : State := { memState 0x1000 0x1000 (List.replicate 31 0) with k := s0.k.set 1 0x7F }

theorem test_t19_unmapped :
    (fault? (exec (.mem512 np nm 1 atRax) t19)).map vectorOf = some 14 ∧
    (fault? (exec (.mem512 np ⟨1, false⟩ 1 atRax) t19)).map vectorOf = some 14 ∧
    (next? (exec (.mem512 np ⟨1, false⟩ 1 atRax)
      { t19 with params := { s0.params with faultSuppression := true } })).isSome = true := by decide

theorem test_t20_non_canonical_mem256 :
    exec (.mem256 np nm 1 atRax) (gprState 0 0x0000800000000000) = .fault (.gp (gprState 0 0x0000800000000000)) ∧
    exec (.mem256 np nm 1 (.base 5 (.d8 0))) (gprState 5 0x0000800000000000) =
      .fault (.ss (gprState 5 0x0000800000000000)) := ⟨by rfl, by rfl⟩

/-- `s0` with R126's reading of an override without a base. -/
def countedState : State := { s0 with params := { s0.params with segOverrideIgnored := false } }

/-- 30_encoding R81: 0x36 and 0x3E have one meaning; the base register decides. -/
theorem test_stack_segment_override_ignored :
    usesStackSegment s0 { seg := some .ss } atRax = false ∧ usesStackSegment s0 { seg := some .ds } atRax = false ∧
    usesStackSegment s0 { seg := some .ss } (.base 5 (.d8 0)) = true ∧
    usesStackSegment s0 { seg := some .ds } (.base 5 (.d8 0)) = true := by decide

/-- 60_exceptions R126: 0x36 puts the operand in the stack segment, 0x3E outside. -/
theorem test_stack_segment_override_counted :
    usesStackSegment countedState { seg := some .ss } atRax = true ∧
    usesStackSegment countedState { seg := some .ds } (.base 5 (.d8 0)) = false := by decide

/-- A step runs what is in memory at pc, and the pc moves on. -/
theorem test_step_runs_reg128 :
    (next? (step (codeState [0x62, 0xF1, 0x7D, 0x08, 0x7A, 0xCA]))).map State.pc = some 0x400006 := by decide

/-- The first step after reset, with an instruction placed. -/
theorem test_first_step_after_reset :
    (next? (step (State.reset.withFetchWord 48 0xCA7A187DF162))).map State.pc = some 0xFFF6 := by decide

/-! ## Witnesses: what the hypotheses of the statements ask for, on one concrete case each -/

/-- Every byte of the largest operand mapped at 0x1000, RAX = 0x1000. -/
def mapped : State := memState 0x1000 0x1000 (List.replicate 32 0)

/-- As `mapped`, alignment checking on (CR0.AM, RFLAGS.AC, CPL 3), RAX odd. -/
def misaligned : State :=
  { memState 0x1001 0x1000 (List.replicate 36 0) with cr0 := 0x60040010, rflags := 0x40002, cpl := 3 }

/-- `mapped` with an unmasked invalid waiting in register 2. -/
def unmaskedNan : State := writeMxcsr (srcState [0x7FC00000]) 0x1F00

theorem enabled_s0 : ∀ v, Enabled v s0 := fun v => by cases v <;> (unfold Enabled; decide)

theorem masked_all {i : Instr} {s : State} {src : Nat → Dword} (h : mxIM s.mxcsr = true ∧ mxPM s.mxcsr = true) :
    AllMasked i s src := ⟨fun _ => h.1, fun _ => h.2⟩

theorem test_witness_DecodeOfEncode : wellFormed (.bcst256 { seg := some .gs, a32 := true } ⟨7, true⟩ 31 (.rip 0xFFFFFFFF)) = true := by
  decide

theorem test_witness_DecodedIsWellFormed :
    decode [0x67, 0x62, 0xF1, 0x7D, 0x48, 0x7A, 0x08, 0x90] = .ok (.mem512 { a32 := true } nm 1 atRax) [0x90] := by decide

theorem test_witness_Vvvv :
    (codeState [0x62, 0xF1, 0x75, 0x48, 0x7A, 0xCA]).mode = .long64 ∧
    decode [0x62, 0xF1, 0x7D, 0x48, 0x7A, 0xCA] = .ok (.reg512 np nm 1 2) [] ∧ (14 : BitVec 4) ≠ 15 ∧
    (fetchWindow (codeState [0x62, 0xF1, 0x75, 0x48, 0x7A, 0xCA])).1 =
      withVvvv 14 [0x62, 0xF1, 0x7D, 0x48, 0x7A, 0xCA] := by decide

theorem test_witness_DecodeUdOnly : decode [0x64, 0x62, 0xF1, 0x05, 0x48, 0x7A, 0xCA] = .udVvvv := by decide

/-- Register forms with b = 1 and b = 0, broadcast and full memory; the prefixes in both orders. -/
theorem test_witness_Fields :
    (PfxBytes {} [] ∧ PfxBytes { seg := some .fs, a32 := true } [0x64, 0x67] ∧
      PfxBytes { seg := some .fs, a32 := true } [0x67, 0x64]) ∧
    decode ([] ++ 0x62 :: 0x01 :: 0x7D :: 0x9F :: 0x7A :: 0xFF :: []) = .ok (.sae512 {} ⟨7, true⟩ 31 31) [] ∧
    decode ([] ++ 0x62 :: 0x01 :: 0x7D :: 0xAF :: 0x7A :: 0xFF :: []) = .ok (.reg256 {} ⟨7, true⟩ 31 31) [] ∧
    decode ([0x67, 0x64] ++ 0x62 :: 0xF1 :: 0x7D :: 0x38 :: 0x7A :: 0x08 :: []) =
      .ok (.bcst256 { seg := some .fs, a32 := true } nm 1 atRax) [] ∧
    decode ([0x64, 0x67] ++ 0x62 :: 0xF1 :: 0x7D :: 0x48 :: 0x7A :: 0x08 :: [0x90]) =
      .ok (.mem512 { seg := some .fs, a32 := true } nm 1 atRax) [0x90] :=
  ⟨⟨.inl rfl, .inl rfl, .inr ⟨.fs, rfl, rfl⟩⟩, by decide⟩

/-- Redundant spellings (30_encoding R81): X without SIB, B with RIP-relative and without a base, the scale of an absent index. -/
theorem test_witness_Fields_redundant :
    decode ([] ++ 0x62 :: 0xB1 :: 0x7D :: 0x48 :: 0x7A :: 0x08 :: []) = .ok (.mem512 {} nm 1 atRax) [] ∧
    decode ([] ++ 0x62 :: 0xD1 :: 0x7D :: 0x48 :: 0x7A :: 0x0D :: [0x10, 0, 0, 0]) = .ok (.mem512 {} nm 1 (.rip 0x10)) [] ∧
    decode ([] ++ 0x62 :: 0xD1 :: 0x7D :: 0x48 :: 0x7A :: 0x0C :: [0x4D, 0x34, 0x12, 0, 0]) =
      .ok (.mem512 {} nm 1 (.sibNoBase (some ⟨1, 1⟩) 0x1234)) [] ∧
    decode ([] ++ 0x62 :: 0xF1 :: 0x7D :: 0x48 :: 0x7A :: 0x4C :: [0xE4, 0x02]) =
      .ok (.mem512 {} nm 1 (.sib 4 none (.d8 2))) [] := by decide

theorem test_witness_MemoryOperand :
    readMem 0 5 false false [0x10, 0, 0, 0] = .ok (.rip 0x10, []) ∧
    readMem 1 5 false true [0x00] = .ok (.base 13 (.d8 0), []) ∧
    readMem 0 4 false false [0x24] = .ok (.sib 4 none .none, []) ∧
    readMem 0 4 true true [0x88] = .ok (.sib 8 (some ⟨9, 2⟩) .none, []) ∧
    readMem 0 4 true false [0x25, 1, 0, 0, 0] = .ok (.sibNoBase (some ⟨12, 0⟩) 1, []) := by decide

theorem test_witness_SaeIgnoresLength : Masking.ok ⟨0, false⟩ = true ∧ Masking.ok ⟨7, true⟩ = true := by decide

/-- For the first, third and fourth clause: bytes at pc, after prefixes in either order. -/
theorem test_witness_Neighbouring_prefixes :
    (PfxBytes {} [] ∧ PfxBytes { seg := some .fs } [0x64] ∧ PfxBytes { seg := some .fs, a32 := true } [0x67, 0x64]) ∧
    FetchGives (codeState [0x48]) ([] ++ [0x48]) ∧ FetchGives (codeState [0x64, 0xF0]) ([0x64] ++ [0xF0]) ∧
    FetchGives (codeState [0x67, 0x64, 0xF0]) ([0x67, 0x64] ++ [0xF0]) ∧
    FetchGives (codeState [0x67, 0x64, 0x65]) ([0x67, 0x64] ++ [segByte .gs]) ∧
    FetchGives (codeState [0x67, 0x64, 0x67]) ([0x67, 0x64] ++ [0x67]) :=
  ⟨⟨.inl rfl, .inl rfl, .inr ⟨.fs, rfl, rfl⟩⟩, ⟨rfl, [], by decide⟩, ⟨rfl, [], by decide⟩, ⟨rfl, [], by decide⟩,
    ⟨rfl, [], by decide⟩, ⟨rfl, [], by decide⟩⟩

/-- For the second clause: the reserved length with b = 0, and with b = 1 and memory; another map behind two prefixes. -/
theorem test_witness_Neighbouring_fields :
    FetchGives (codeState [0x62, 0xF1, 0x7D, 0x68, 0x7A, 0xCA]) ([] ++ [0x62, 0xF1, 0x7D, 0x68, 0x7A, 0xCA]) ∧
    FetchGives (codeState [0x62, 0xF1, 0x7D, 0x78, 0x7A, 0x08]) ([] ++ [0x62, 0xF1, 0x7D, 0x78, 0x7A, 0x08]) ∧
    FetchGives (codeState [0x67, 0x64, 0x62, 0xF2, 0x7D, 0x48, 0x7A, 0x08])
      ([0x67, 0x64] ++ [0x62, 0xF2, 0x7D, 0x48, 0x7A, 0x08]) ∧
    (0x78 : Byte).extractLsb' 5 2 = 3#2 ∧ ¬((0x68 : Byte).getLsbD 4 = true) ∧ ¬((0x08 : Byte).extractLsb' 6 2 = 3#2) ∧
    (0xF2 : Byte).extractLsb' 0 3 ≠ 1#3 :=
  ⟨⟨rfl, [], by decide⟩, ⟨rfl, [], by decide⟩, ⟨rfl, [], by decide⟩, by decide, by decide, by decide, by decide⟩

/-- Both clauses: a denormal, and an element that is none. -/
theorem test_witness_Daz : (f32Exp 1 = 0 ∧ f32Frac 1 ≠ 0) ∧ f32Exp 0x3FC00000 = 127 := by decide

theorem test_witness_CanonicalAddresses :
    isCanonical 0x00007FFFFFFFFFFF = true ∧ isCanonical 0x0000800000000000 = false ∧
    isCanonical 0xFFFF7FFFFFFFFFFF = false ∧ isCanonical 0xFFFF800000000000 = true := by decide

theorem test_witness_DefaultTranslate :
    mapped.xlat = [] ∧ isCanonical 0x0000800000000000 = false ∧ isCanonical 0x101F = true ∧
    mapped.mem.read 0x101F = some 0 ∧ mapped.mem.read 0x1020 = none := by decide

theorem test_witness_MemWrite :
    ([1, 2] : List Byte).length ≤ 2 ^ 64 ∧ (memWrite s0 0xFFFFFFFFFFFFFFFF [1, 2]).mem = [(0, 2), (0xFFFFFFFFFFFFFFFF, 1)] ∧
    s0.mem.wf = true ∧ ∀ k < ([1, 2] : List Byte).length, (5 : Nat) ≠ ((0xFFFFFFFFFFFFFFFF : Qword) + BitVec.ofNat 64 k).toNat := by
  decide

theorem test_witness_OperandRead :
    memSource .v512 mapped np nm atRax = .ok (List.replicate 8 0) ∧ laneActive mapped nm 7 = true := ⟨by rfl, by decide⟩

theorem test_witness_Cvtt_special : f32Exp 0x7F800000 = 255 := by decide

/-- -2^63 is in range and +2^63 is not: the clauses of the statement at their boundary. -/
theorem test_witness_Cvtt_range :
    (f32Exp 0xDF000000 ≠ 255 ∧ truncate (cvttValue 0xDF000000 false) = -2 ^ 63) ∧
    (f32Exp 0x5F000000 ≠ 255 ∧ truncate (cvttValue 0x5F000000 false) = 2 ^ 63) ∧
    (f32Exp 0x00000001 ≠ 255 ∧ truncate (cvttValue 0x00000001 true) = 0) := by
  have e1 : f32Exp 0xDF000000 = 190 := by decide
  have f1 : f32Frac 0xDF000000 = 0 := by decide
  have g1 : f32Sign 0xDF000000 = true := by decide
  have e2 : f32Exp 0x5F000000 = 190 := by decide
  have f2 : f32Frac 0x5F000000 = 0 := by decide
  have g2 : f32Sign 0x5F000000 = false := by decide
  have e3 : f32Exp 0x00000001 = 0 := by decide
  refine ⟨⟨by rw [e1]; decide, ?_⟩, ⟨by rw [e2]; decide, ?_⟩, ⟨by rw [e3]; decide, ?_⟩⟩
  · rw [truncate, cvttValue, f32Value, e1, f1, g1]; norm_num
  · rw [truncate, cvttValue, f32Value, e2, f2, g2]; norm_num
  · rw [truncate, cvttValue, e3]; norm_num

theorem test_witness_CvttSignals :
    (cvtt 0x5F000000 false).ie = true ∧ 150 ≤ f32Exp 0x4B000000 ∧ f32Exp 0x5E800000 = 189 := by decide

theorem test_witness_CvttNegated :
    (cvtt 0x5EFFFFFF false).ie = false ∧ (cvtt (0x5EFFFFFF ^^^ 0x80000000#32) false).ie = false := by decide

theorem test_witness_RegisterForms :
    (∀ v, Enabled v s0) ∧ ∀ v, AllMasked (regForm v np nm 1 2) s0 (elem32 (readVec s0 2)) :=
  ⟨enabled_s0, fun _ => masked_all (by decide)⟩

theorem test_witness_MemoryForms :
    (∀ v, Enabled v mapped) ∧
    (∀ v, Readable mapped (operandAddress mapped np (fullBytes v) atRax) (fullBytes v)
      (fun k => !mapped.params.faultSuppression || laneActive mapped nm (k / 4)) (fun _ => 0)) ∧
    (∀ v, AlignmentPasses mapped (operandAddress mapped np (fullBytes v) atRax) (fullBytes v)
      (fun k => !mapped.params.faultSuppression || laneActive mapped nm (k / 4))) ∧
    ∀ v, AllMasked (memForm v np nm 1 atRax) mapped (dwordOf fun _ => 0) :=
  ⟨enabled_s0, fun v => by cases v <;> (unfold Readable; decide), fun _ => .inl (by decide), fun _ => masked_all (by decide)⟩

theorem test_witness_BroadcastForms :
    (∀ v, Enabled v mapped) ∧
    (∀ v, Readable mapped (operandAddress mapped np 4 atRax) 4
      (fun _ => !mapped.params.faultSuppression || someActive mapped nm v) (fun _ => 0)) ∧
    (∀ v, AlignmentPasses mapped (operandAddress mapped np 4 atRax) 4
      (fun _ => !mapped.params.faultSuppression || someActive mapped nm v)) ∧
    ∀ v, AllMasked (bcstForm v np nm 1 atRax) mapped (fun _ => dwordOf (fun _ => 0) 0) :=
  ⟨enabled_s0, fun v => by cases v <;> (unfold Readable; decide), fun _ => .inl (by decide), fun _ => masked_all (by decide)⟩

/-- Alignment checking on, and the operand aligned. -/
theorem test_witness_AlignmentPasses_aligned :
    alignmentChecking { misaligned with gpr := mapped.gpr } = true ∧
    (operandAddress { misaligned with gpr := mapped.gpr } np 32 atRax).toNat % 32 = 0 := by decide

theorem test_witness_SaeForm : Enabled .v512 unmaskedNan := by unfold Enabled; decide

theorem test_witness_NewDestination_and_frame :
    (∃ t, exec (.reg128 np nm 1 2) (srcState [0x40200000]) = .next t) ∧
    (∃ t, exec (.mem512 np nm 1 atRax) mapped = .next t) ∧ ∃ t, exec (.sae512 np nm 1 2) unmaskedNan = .next t :=
  ⟨exists_next (by decide), exists_next (by decide), exists_next (by decide)⟩

theorem test_witness_SaeGivesTheRegister :
    (∃ t, exec (.sae512 np nm 1 2) unmaskedNan = .next t) ∧
    ∃ u, exec (.reg512 np nm 1 2) (writeMxcsr unmaskedNan (unmaskedNan.mxcsr ||| 0x1080#32)) = .next u :=
  ⟨exists_next (by decide), exists_next (by decide)⟩

theorem test_witness_OnlyActiveSourceElements :
    (1 : VReg) ≠ 2 ∧
    (∀ j < lanesOf .v512, laneActive { s0 with k := s0.k.set 1 1 } ⟨1, false⟩ j = true →
      elem32 (packDwords [0, 0x7FC00000]) j = elem32 (readVec s0 2) j) ∧
    (∃ t, exec (regForm .v512 np ⟨1, false⟩ 1 2) { s0 with k := s0.k.set 1 1 } = .next t) ∧
    ∃ t, exec (.sae512 np ⟨1, false⟩ 1 2) { s0 with k := s0.k.set 1 1 } = .next t :=
  ⟨by decide, by decide, exists_next (by decide), exists_next (by decide)⟩

theorem test_witness_InactiveMemoryElements :
    (∃ t, exec (memForm .v128 np ⟨1, false⟩ 1 atRax) { mapped with k := s0.k.set 1 1 } = .next t) ∧
    (∀ k < fullBytes .v128,
      (laneActive { mapped with k := s0.k.set 1 1 } ⟨1, false⟩ (k / 4) = true →
        readByte { mapped with mem := mapped.mem.write 0x1004 9 } .read (0x1000 + BitVec.ofNat 64 k) =
          readByte mapped .read (0x1000 + BitVec.ofNat 64 k)) ∧
      (laneActive { mapped with k := s0.k.set 1 1 } ⟨1, false⟩ (k / 4) = false →
        (byteAt { mapped with mem := mapped.mem.write 0x1004 9 } (0x1000 + BitVec.ofNat 64 k)).isSome = true)) ∧
    mapped.mem.write 0x1004 9 ≠ mapped.mem :=
  ⟨exists_next (by decide), by decide, by decide⟩

theorem test_witness_MaskBits :
    (∀ j < lanesOf (instrVLen (.reg128 np ⟨1, false⟩ 1 2)), (4 : Qword).getLsbD j = (readMask s0 1).getLsbD j) ∧
    ∃ t, exec (.reg128 np ⟨1, false⟩ 1 2) s0 = .next t := ⟨by decide, exists_next (by decide)⟩

theorem test_witness_OnlyMasksAndDaz :
    mxDAZ 0x7F80 = mxDAZ s0.mxcsr ∧ mxIM 0x7F80 = mxIM s0.mxcsr ∧ mxPM 0x7F80 = mxPM s0.mxcsr ∧
    mxDAZ 0x0000 = mxDAZ unmaskedNan.mxcsr ∧ (∃ t, exec (.reg128 np nm 1 2) s0 = .next t) ∧
    ∃ t, exec (.sae512 np nm 1 2) unmaskedNan = .next t :=
  ⟨by decide, by decide, by decide, by decide, exists_next (by decide), exists_next (by decide)⟩

theorem test_witness_PrivilegeLevel :
    alignmentChecking mapped = false ∧ alignmentChecking { mapped with cpl := 3 } = false ∧
    ∃ t, exec (.mem512 np nm 1 atRax) mapped = .next t := ⟨by decide, by decide, exists_next (by decide)⟩

theorem test_witness_UnmaskedSignal :
    instrSae (.reg512 np nm 1 2) = false ∧ Enabled .v512 unmaskedNan ∧
    sourceOf (.reg512 np nm 1 2) unmaskedNan = .ok [0x7FC00000, 0, 0, 0, 0, 0, 0, 0] ∧
    ¬AllMasked (.reg512 np nm 1 2) unmaskedNan (fun j => [0x7FC00000, 0, 0, 0, 0, 0, 0, 0].getD j 0) ∧
    osxmmexcpt unmaskedNan = true ∧ osxmmexcpt { unmaskedNan with cr4 := 0x40000 } = false :=
  ⟨rfl, by unfold Enabled; decide, by rfl,
    fun h => absurd (h.1 ⟨0, by decide, by decide, by decide⟩) (by decide), by decide, by decide⟩

theorem test_witness_NonCanonical :
    Enabled .v512 (gprState 0 0x0000800000000000) ∧
    readByte (gprState 0 0x0000800000000000) .read
      (operandAddress (gprState 0 0x0000800000000000) np 32 atRax + BitVec.ofNat 64 31) = .error .nonCanonical ∧
    readByte (gprState 0 0x00007FFFFFFFFFFD) .read
      (operandAddress (gprState 0 0x00007FFFFFFFFFFD) np 4 atRax + BitVec.ofNat 64 3) = .error .nonCanonical ∧
    mapped.params.faultSuppression = false := ⟨enabled_s0 .v512, by rfl, by rfl, by decide⟩

theorem test_witness_RefusedPage :
    (∃ c, readByte t19 .read (operandAddress t19 np 32 atRax + BitVec.ofNat 64 31) = .error (.page c)) ∧
    (∀ j < 32, someNonCanonical [readByte t19 .read (operandAddress t19 np 32 atRax + BitVec.ofNat 64 j)] = false) ∧
    (∃ c, readByte s0 .read (operandAddress s0 np 4 atRax + BitVec.ofNat 64 0) = .error (.page c)) ∧
    ∀ j < 4, someNonCanonical [readByte s0 .read (operandAddress s0 np 4 atRax + BitVec.ofNat 64 j)] = false :=
  ⟨⟨_, rfl⟩, by decide, ⟨_, rfl⟩, by decide⟩

theorem test_witness_Misaligned :
    (∀ v, Enabled v misaligned) ∧ alignmentChecking misaligned = true ∧
    (∀ v, Readable misaligned (operandAddress misaligned np (fullBytes v) atRax) (fullBytes v)
      (fun k => !misaligned.params.faultSuppression || laneActive misaligned nm (k / 4)) (fun _ => 0)) ∧
    Readable misaligned (operandAddress misaligned np 4 atRax) 4 (fun _ => true) (fun _ => 0) ∧
    (∀ v, (operandAddress misaligned np (fullBytes v) atRax).toNat % fullBytes v ≠ 0) ∧
    (operandAddress misaligned np 4 atRax).toNat % 4 ≠ 0 ∧ misaligned.params.reconstructed = false :=
  ⟨fun v => by cases v <;> (unfold Enabled; decide), by decide, fun v => by cases v <;> (unfold Readable; decide),
    by unfold Readable; decide, fun v => by cases v <;> decide, by decide, by decide⟩

theorem test_witness_MissingCpuid :
    s0.mode = .long64 ∧ hasAvx512dq { s0 with cpuid7Ebx := 0x80010000 } = false ∧
    instrVLen (.mem256 np nm 1 atRax) ≠ .v512 ∧ hasAvx512vl { s0 with cpuid7Ebx := 0x00030000 } = false := by decide

theorem test_witness_FailedEnable :
    hasAvx512dq s0 = true ∧ hasAvx512vl s0 = true ∧ hasAvx512f { s0 with cpuid7Ebx := 0x80020000 } = false ∧
    osxsave { s0 with cr4 := 0 } = false ∧ xcr0Enabled { s0 with xcr0 := 0xE5 } = false ∧
    xcr0Enabled { s0 with xcr0 := 0xC7 } = false ∧ taskSwitched { s0 with cr0 := 8 } = true := by decide

theorem test_witness_OtherModes : State.reset.mode ≠ .long64 := by decide

theorem test_witness_RegisterFormsFault :
    (∃ f, exec (regForm .v512 np nm 1 2) unmaskedNan = .fault f) ∧
    ∃ f, exec (.sae512 np nm 1 2) { s0 with cpuid7Ebx := 0 } = .fault f :=
  ⟨exists_fault (by decide), exists_fault (by decide)⟩

/-- A step that runs reg512, and one that raises #XM. -/
theorem test_witness_Steps :
    (∃ t, step (codeState [0x62, 0xF1, 0x7D, 0x48, 0x7A, 0xCA]) = .next t) ∧
    ∃ f, step (memWrite unmaskedNan 0x400000 [0x62, 0xF1, 0x7D, 0x48, 0x7A, 0xCA]) = .fault f :=
  ⟨exists_next (by decide), exists_fault (by decide)⟩

theorem test_witness_StepRuns :
    (codeState [0x62, 0xF1, 0x7D, 0x48, 0x7A, 0xCA]).mode = .long64 ∧
    decode (fetchWindow (codeState [0x62, 0xF1, 0x7D, 0x48, 0x7A, 0xCA])).1 = .ok (.reg512 np nm 1 2) [] ∧
    (codeState [0x62, 0xF1, 0x7D, 0x48, 0x7A, 0xCA]).pc.toNat + instrLength (.reg512 np nm 1 2) < 2 ^ 64 ∧
    ∀ k < instrLength (.reg512 np nm 1 2),
      readByte (codeState [0x62, 0xF1, 0x7D, 0x48, 0x7A, 0xCA]) .fetch (0x400000 + BitVec.ofNat 64 k) =
        .ok ((encode (.reg512 np nm 1 2)).getD k 0) := by decide

/-- An instruction that ends at 2^64 exactly, and an empty memory. -/
theorem test_witness_FetchLimits :
    decode (fetchWindow (memWrite { s0 with pc := 0xFFFFFFFFFFFFFFFA } 0xFFFFFFFFFFFFFFFA
      [0x62, 0xF1, 0x7D, 0x48, 0x7A, 0xCA])).1 = .ok (.reg512 np nm 1 2) [] ∧
    2 ^ 64 ≤ (0xFFFFFFFFFFFFFFFA : Qword).toNat + instrLength (.reg512 np nm 1 2) ∧
    decode (fetchWindow s0).1 = .reject .short ∧ (fetchWindow s0).2.isSome = true ∧
    (fetchWindow { s0 with pc := 0x0000800000000000 }).2 = some .nonCanonical := by decide

theorem test_witness_Placed :
    wellFormed (.reg512 np nm 1 2) = true ∧ State.reset.pc.toNat + 15 < 2 ^ 64 ∧
    ∀ k < 15, isCanonical (State.reset.pc + BitVec.ofNat 64 k) = true := by decide

theorem test_witness_StateInvariant : StateInv (codeState [0x62, 0xF1, 0x7D, 0x48, 0x7A, 0xCA]) := by
  unfold StateInv; decide

theorem test_witness_Launched : Launched s0 := by unfold Launched; decide

theorem test_witness_LaunchEnables :
    hasAvx512f State.reset = true ∧ hasAvx512dq State.reset = true ∧ hasAvx512vl State.reset = true := by decide

theorem test_witness_StackSegment :
    s0.params.segOverrideIgnored = true ∧ countedState.params.segOverrideIgnored = false := by decide

theorem test_witness_OverridesWithoutBase :
    (Seg.es ≠ .fs ∧ Seg.es ≠ .gs ∧ Seg.ss ≠ .fs ∧ Seg.ss ≠ .gs) ∧
    mapped.params.segOverrideIgnored = true ∧
    (∃ t, exec (memForm .v512 ⟨some .es, false⟩ nm 1 atRax) mapped = .next t) ∧
    ∃ t, exec (bcstForm .v512 ⟨some .ss, true⟩ nm 1 atRax) mapped = .next t :=
  ⟨by decide, by decide, exists_next (by decide), exists_next (by decide)⟩

/-- The first instruction of P1 of 95_test_vectors is an admitted program, and its run ends in success (70_reset R155). -/
theorem test_admitted_program :
    admittedProgram [0x62, 0xF1, 0x7D, 0x48, 0x7A, 0xCA, 0x62, 0xF1, 0x75, 0x48, 0x7A, 0xCA] = true ∧
    admittedProgram [0x62, 0xF1, 0x7D, 0x40, 0x7A, 0xCA] = false := by decide

end Sys2Proof.Tests
end

section
/-! What a completed instruction, and so a step that goes on, leaves as it was; and the store of MemWrite. -/

namespace Sys2Proof.Machine

/-! ## The state that a completed instruction leaves -/

/-- A completed instruction writes vector registers, MXCSR and pc at most. -/
theorem committed_frame (i : Instr) (s : State) (src : List Dword) :
    committed i s src =
      { s with zmm := (committed i s src).zmm, mxcsr := (committed i s src).mxcsr, pc := (committed i s src).pc } := rfl

/-- A completed instruction writes no vector register but its destination. -/
theorem readVec_committed_other (i : Instr) (s : State) (src : List Dword) {r : VReg} (h : r ≠ instrDst i) :
    readVec (committed i s src) r = readVec s r := readVec_writeVec_other s _ h

/-- MXCSR of a completed instruction: as it was (SAE, 40_vcvttps2qq R99), or with the flags of the lanes OR-ed in (R97). -/
theorem committed_mxcsr (i : Instr) (s : State) (src : List Dword) :
    (committed i s src).mxcsr =
      if instrSae i then s.mxcsr
      else orFlags s.mxcsr ((laneResults (instrVLen i) s (instrMask i) (instrDst i) src).any Cvt.ie)
        ((laneResults (instrVLen i) s (instrMask i) (instrDst i) src).any Cvt.pe) := rfl

/-- A completed instruction, of the SAE form too, changes MXCSR only by OR-ing in flags. -/
theorem exists_mxcsr_committed (i : Instr) (s : State) (src : List Dword) :
    ∃ ie pe, (committed i s src).mxcsr = orFlags s.mxcsr ie pe := by
  rw [committed_mxcsr]
  split
  · exact ⟨false, false, (orFlags_none _).symm⟩
  · exact ⟨_, _, rfl⟩

/-- A step that goes on completed the instruction that it fetched. -/
theorem step_eq_next_committed {s t : State} (h : step s = .next t) :
    ∃ i src, fetchDecode s = .run i ∧ sourceOf i s = .ok src ∧ t = committed i s src := by
  obtain ⟨i, hrun, hexec⟩ := step_eq_next h
  obtain ⟨-, src, hsrc, -, ht⟩ := exec_eq_next_iff.1 hexec
  exact ⟨i, src, hrun, hsrc, ht⟩

/-! ## The statements -/

/-- Settles O14: stored bytes read back, a store leaves the other addresses alone, and it keeps memory canonical. -/
theorem memWriteStoresItsBytesOnly : Obligations.MemWriteStoresItsBytesOnly := fun s a bs hlen =>
  ⟨Memory.read_writeBytes s.mem a bs hlen, fun _ hc => Memory.read_writeBytes_other s.mem a bs hc, memWrite_wf a bs⟩

/-- Settles O48: a step that goes on leaves the state that its instruction commits, of which the four parts are known. -/
theorem stepChangesOneRegisterFlagsAndPc : Obligations.StepChangesOneRegisterFlagsAndPc := by
  intro s t h
  obtain ⟨i, src, -, -, rfl⟩ := step_eq_next_committed h
  obtain ⟨ie, pe, hflags⟩ := exists_mxcsr_committed i s src
  refine ⟨committed_frame i s src, ⟨instrDst i, fun r hr => readVec_committed_other i s src hr⟩, ?_, ?_⟩
  · intro b h0 h5
    rw [hflags, orFlags_other _ _ _ h0 h5]
  · intro b hb
    rw [hflags, orFlags_sticky _ _ _ hb]

end Sys2Proof.Machine
end

section
/-! The state invariant under a step; what cannot influence a completed instruction; where a fetch ends the step. -/

namespace Sys2Proof.Machine

/-! ## The state invariant (10_state R24, 20_memory R40) -/

/-- A completed instruction leaves memory alone, and of MXCSR it changes no reserved bit. -/
theorem stateInv_committed (i : Instr) {s : State} (src : List Dword) (h : StateInv s) : StateInv (committed i s src) := by
  obtain ⟨hmem, hreserved⟩ := h
  obtain ⟨ie, pe, hflags⟩ := exists_mxcsr_committed i s src
  exact ⟨hmem, by rw [hflags, orFlags_reserved, hreserved]⟩

/-- Settles O49: a step that goes on leaves the state that its instruction commits. -/
theorem everyStepKeepsTheStateInvariant : Obligations.EveryStepKeepsTheStateInvariant := by
  intro s t hinv hstep
  obtain ⟨i, src, -, -, rfl⟩ := step_eq_next_committed hstep
  exact stateInv_committed i src hinv

/-! ## Two states in which an instruction has the same lanes -/

/-- The lanes of an instruction (40_vcvttps2qq R96), from its source elements. -/
def instrLanes (i : Instr) (s : State) (src : List Dword) : List Cvt :=
  laneResults (instrVLen i) s (instrMask i) (instrDst i) src

/-- What is committed hangs on the source elements by way of the lanes alone. -/
theorem committed_eq_instrLanes (i : Instr) (s : State) (src : List Dword) :
    committed i s src =
      advancePc
        (writeMxcsr (writeVec s (instrDst i) (packQwords ((instrLanes i s src).map Cvt.r)))
          (if instrSae i then s.mxcsr
            else orFlags s.mxcsr ((instrLanes i s src).any Cvt.ie) ((instrLanes i s src).any Cvt.pe)))
        (instrLength i) := rfl

theorem committed_pc (i : Instr) (s : State) (src : List Dword) :
    (committed i s src).pc = s.pc + BitVec.ofNat 64 (instrLength i) := rfl

/-- Whether an unmasked exception is signalled hangs on the lanes and, but for the SAE form, on IM and PM. -/
theorem unmaskedSignal_congr {i : Instr} {s s' : State} {src src' : List Dword}
    (hlanes : instrLanes i s' src' = instrLanes i s src)
    (hmasks : instrSae i = false → mxIM s'.mxcsr = mxIM s.mxcsr ∧ mxPM s'.mxcsr = mxPM s.mxcsr) :
    unmaskedSignal i s' src' = unmaskedSignal i s src := by
  simp only [instrLanes] at hlanes
  cases hsae : instrSae i with
  | true => simp [unmaskedSignal, hsae]
  | false =>
    obtain ⟨him, hpm⟩ := hmasks hsae
    simp only [unmaskedSignal, unmasked, hlanes, him, hpm]

/-- An instruction that completes also completes in a state in which it is enabled, has the same lanes and the same masks. -/
theorem exec_next_of_sameLanes {i : Instr} {s s' t : State} (h : exec i s = .next t)
    (henabled : Enabled (instrVLen i) s → Enabled (instrVLen i) s')
    (hsource : ∀ src, sourceOf i s = .ok src →
      ∃ src', sourceOf i s' = .ok src' ∧ instrLanes i s' src' = instrLanes i s src)
    (hmasks : instrSae i = false → mxIM s'.mxcsr = mxIM s.mxcsr ∧ mxPM s'.mxcsr = mxPM s.mxcsr) :
    ∃ src src', instrLanes i s' src' = instrLanes i s src ∧ t = committed i s src ∧
      exec i s' = .next (committed i s' src') := by
  obtain ⟨hen, src, hsrc, hquiet, ht⟩ := exec_eq_next_iff.1 h
  obtain ⟨src', hsrc', hlanes⟩ := hsource src hsrc
  have hquiet' : unmaskedSignal i s' src' = false := (unmaskedSignal_congr hlanes hmasks).trans hquiet
  exact ⟨src, src', hlanes, ht, exec_eq_next_iff.2 ⟨henabled hen, src', hsrc', hquiet', rfl⟩⟩

/-! ## The source register (10_state R22) -/

/-- A register form completes with the same result under any source register that agrees on the elements of active lanes. -/
theorem exec_writeVec_source {i : Instr} {r : VReg} {s t : State} {x : Vec}
    (hform : ∀ s, sourceOf i s = .ok (regSource (instrVLen i) s r)) (hdst : instrDst i ≠ r)
    (hx : ∀ j < lanesOf (instrVLen i), laneActive s (instrMask i) j = true → elem32 x j = elem32 (readVec s r) j)
    (h : exec i s = .next t) : exec i (writeVec s r x) = .next (writeVec t r x) := by
  have hsource : ∀ src, sourceOf i s = .ok src →
      ∃ src', sourceOf i (writeVec s r x) = .ok src' ∧ instrLanes i (writeVec s r x) src' = instrLanes i s src := by
    intro src hsrc
    obtain rfl : regSource (instrVLen i) s r = src := Except.ok.inj ((hform s).symm.trans hsrc)
    refine ⟨_, hform _, laneResults_congr (fun _ _ => rfl) ?_ ?_ rfl⟩
    · intro j _ _
      rw [readVec_writeVec_other s x hdst]
    · intro j hj hactive
      rw [regSource_getD hj, regSource_getD hj, readVec_writeVec_same, hx j hj hactive]
  obtain ⟨src, src', hlanes, rfl, hexec⟩ := exec_next_of_sameLanes (s' := writeVec s r x) h id hsource fun _ => ⟨rfl, rfl⟩
  rw [hexec, committed_eq_instrLanes, committed_eq_instrLanes, hlanes, writeVec_comm s _ _ hdst.symm]
  rfl

/-- Settles O27: the plain register forms and the SAE form read their source register alike. -/
theorem onlyActiveSourceElementsMatter : Obligations.OnlyActiveSourceElementsMatter := by
  intro v p m dst src s t x hne hx
  constructor
  · exact exec_writeVec_source (fun s => by rw [sourceOf_regForm, instrVLen_regForm]) (by simpa using hne)
      (by simpa using hx)
  · rintro rfl
    exact exec_writeVec_source (i := .sae512 p m dst src) (fun _ => rfl) hne hx

/-! ## The opmask registers (10_state R23) and MXCSR (R24) -/

/-- In a state that differs in the opmask registers and MXCSR only, with the same active lanes, DAZ and masks, an instruction that
completes does so again, with the same lanes. -/
theorem exec_next_of_sameActivity {i : Instr} {s s' t : State} (h : exec i s = .next t)
    (hframe : s' = { s with k := s'.k, mxcsr := s'.mxcsr })
    (hactive : ∀ j < lanesOf (instrVLen i), laneActive s' (instrMask i) j = laneActive s (instrMask i) j)
    (hdaz : mxDAZ s'.mxcsr = mxDAZ s.mxcsr)
    (hmasks : instrSae i = false → mxIM s'.mxcsr = mxIM s.mxcsr ∧ mxPM s'.mxcsr = mxPM s.mxcsr) :
    ∃ src src', instrLanes i s' src' = instrLanes i s src ∧ t = committed i s src ∧
      exec i s' = .next (committed i s' src') := by
  have hfield {α : Type} (f : State → α) : f s' = f { s with k := s'.k, mxcsr := s'.mxcsr } := congrArg f hframe
  refine exec_next_of_sameLanes h ((hfield (Enabled (instrVLen i))).symm.mp) (fun src hsrc => ⟨src, ?_, ?_⟩) hmasks
  · exact sourceOf_congr (s := s) (hfield State.mem) (hfield State.xlat) (hfield State.zmm) (hfield State.gpr) (hfield State.pc)
      ⟨hfield State.fsBase, hfield State.gsBase, hfield State.csBase, hfield State.mode⟩ (hfield State.params) hactive
      (fun _ _ => alignmentStop_none_congr (hfield alignmentChecking) (hfield State.params)) hsrc
  · have hold (j : Nat) : elem64 (readVec s' (instrDst i)) j = elem64 (readVec s (instrDst i)) j :=
      hfield fun u => elem64 (readVec u (instrDst i)) j
    exact laneResults_congr hactive (fun j _ _ => hold j) (fun _ _ _ => rfl) hdaz

/-- The activity of the lanes below `n` hangs on the bits below `n` of the opmask registers. -/
theorem laneActive_setMask {s : State} {r : KReg} {y : Qword} {n : Nat}
    (hy : ∀ j < n, y.getLsbD j = (readMask s r).getLsbD j) (m : Masking) {j : Nat} (hj : j < n) :
    laneActive { s with k := s.k.set r y } m j = laneActive s m j := by
  rw [laneActive, laneActive, readMask_set]
  split_ifs with hr
  · rw [hr, hy j hj]
  · rfl

/-- Settles O29: the bits below KL decide which lanes are active. -/
theorem maskBitsAboveLanesCannotMatter : Obligations.MaskBitsAboveLanesCannotMatter := by
  intro i s t r y hy h
  obtain ⟨src, src', hlanes, rfl, hexec⟩ :=
    exec_next_of_sameActivity (s' := { s with k := s.k.set r y }) h rfl (fun _ hj => laneActive_setMask hy _ hj) rfl
      fun _ => ⟨rfl, rfl⟩
  rw [hexec, committed_eq_instrLanes, committed_eq_instrLanes, hlanes]
  rfl

/-- Settles O30: the lanes read DAZ alone, and IM and PM only decide whether a signal is raised. -/
theorem onlyMasksAndDazOfMxcsrAreRead : Obligations.OnlyMasksAndDazOfMxcsrAreRead := by
  intro i s t x hdaz hmasks h
  obtain ⟨src, src', hlanes, rfl, hexec⟩ :=
    exec_next_of_sameActivity (s' := writeMxcsr s x) h rfl (fun _ _ => rfl) hdaz hmasks
  obtain ⟨ie, pe, hflags⟩ := exists_mxcsr_committed i (writeMxcsr s x) src'
  refine ⟨_, hexec, ?_, ?_, ?_⟩
  · simp only [committed_eq_instrLanes, hlanes, advancePc_zmm, writeMxcsr_zmm, writeVec_zmm]
  · rw [committed_pc, committed_pc, writeMxcsr_pc]
  · intro b h0 h5
    rw [hflags, orFlags_other _ _ _ h0 h5, writeMxcsr_mxcsr]

/-! ## Where a fetch ends the step (10_state R26, 60_exceptions R126) -/

theorem step_of_stop {s : State} {o : Host.Outcome State Fault Refusal} (h : fetchDecode s = .stop o) : step s = o := by
  rw [step, h]

/-- An instruction that reaches 2^64 stops the step. -/
theorem fetchDecode_of_wraps {s : State} {i : Instr} {rest : List Byte} (hmode : s.mode = .long64)
    (hdecode : decode (fetchWindow s).1 = .ok i rest) (hwraps : 2 ^ 64 ≤ s.pc.toNat + instrLength i) :
    fetchDecode s = .stop (.refused .pcWraps) := by
  rw [fetchDecode, if_neg (not_not.2 hmode), hdecode]
  exact if_neg (Nat.not_lt.2 hwraps)

/-- An instruction that is cut short by a refused byte stops the step as the failed fetch does. -/
theorem fetchDecode_of_short {s : State} {d : Deny} (hmode : s.mode = .long64)
    (hdecode : decode (fetchWindow s).1 = .reject .short) (hdeny : (fetchWindow s).2 = some d) :
    fetchDecode s = .stop (fetchFails s d) := by
  rw [fetchDecode, if_neg (not_not.2 hmode), hdecode, hdeny]

@[simp] theorem byteAddrs_length (a : Qword) (n : Nat) : (byteAddrs a n).length = n := by simp [byteAddrs]

theorem byteAddrs_getD (a : Qword) {n k : Nat} (hk : k < n) : (byteAddrs a n).getD k 0 = a + BitVec.ofNat 64 k := by
  simp [byteAddrs, hk, List.getD_eq_getElem?_getD]

/-- #PF on one refused byte carries its code and the address of one of the accessed bytes, a free one (log 5). -/
theorem raisePage_byteAddrs (s : State) (a : Qword) {n : Nat} (hn : 0 < n) (c : Dword) :
    ∃ k < n, raisePage s (byteAddrs a n) [c] = .fault (.pf (a + BitVec.ofNat 64 k) c (drawn s)) := by
  have hk : Config.freePageIndex s.draws % n < n := Nat.mod_lt _ hn
  refine ⟨_, hk, ?_⟩
  rw [raisePage, byteAddrs_length, byteAddrs_getD a hk, List.length_singleton, Nat.mod_one, List.getD_cons_zero]
  rfl

/-- Settles O45: an instruction at the end of the address space is refused, and a failed fetch answers as its refusal and the
parameter say. -/
theorem fetchLimitsAreRefused : Obligations.FetchLimitsAreRefused := by
  refine ⟨fun s i rest hmode hdecode hwraps => step_of_stop (fetchDecode_of_wraps hmode hdecode hwraps), ?_⟩
  intro s d hmode hdecode hdeny
  rw [step_of_stop (fetchDecode_of_short hmode hdecode hdeny)]
  refine ⟨fun hrefuse => ?_, fun hraise hd => ?_, fun hraise c hd => ?_⟩
  · simp [fetchFails, hrefuse]
  · simp only [hd, fetchFails, hraise, if_true, raise]
  · simp only [hd, fetchFails, hraise, if_true]
    exact raisePage_byteAddrs s s.pc (by decide) c

end Sys2Proof.Machine
end

section
/-! Addresses as numbers, the bytes of a memory operand, and memory over a step (spec 20_memory R41 to R52). -/

namespace Sys2Proof.Machine

/-! ## Words as integers modulo a divisor of 2^64 -/

section Residues

variable {M : ℤ} {x y : Qword} {X Y : ℤ}

theorem toNat_add_modEq (hM : M ∣ 2 ^ 64) (hx : (x.toNat : ℤ) ≡ X [ZMOD M]) (hy : (y.toNat : ℤ) ≡ Y [ZMOD M]) :
    ((x + y).toNat : ℤ) ≡ X + Y [ZMOD M] := by
  rw [BitVec.toNat_add]
  push_cast
  exact ((Int.mod_modEq _ _).of_dvd hM).trans (hx.add hy)

theorem toNat_mul_modEq (hM : M ∣ 2 ^ 64) (hx : (x.toNat : ℤ) ≡ X [ZMOD M]) (hy : (y.toNat : ℤ) ≡ Y [ZMOD M]) :
    ((x * y).toNat : ℤ) ≡ X * Y [ZMOD M] := by
  rw [BitVec.toNat_mul]
  push_cast
  exact ((Int.mod_modEq _ _).of_dvd hM).trans (hx.mul hy)

theorem toNat_shiftLeft_modEq (hM : M ∣ 2 ^ 64) (k : Nat) (hx : (x.toNat : ℤ) ≡ X [ZMOD M]) :
    ((x <<< k).toNat : ℤ) ≡ X * 2 ^ k [ZMOD M] := by
  rw [BitVec.toNat_shiftLeft, Nat.shiftLeft_eq]
  push_cast
  exact ((Int.mod_modEq _ _).of_dvd hM).trans (hx.mul_right _)

theorem toNat_ofNat_modEq (hM : M ∣ 2 ^ 64) (n : Nat) : ((BitVec.ofNat 64 n).toNat : ℤ) ≡ n [ZMOD M] := by
  rw [BitVec.toNat_ofNat]
  push_cast
  exact (Int.mod_modEq _ _).of_dvd hM

/-- A sign-extended word stands for its signed value. -/
theorem toNat_signExtend_modEq (hM : M ∣ 2 ^ 64) {w : Nat} (hw : w ≤ 64) (v : BitVec w) :
    ((v.signExtend 64).toNat : ℤ) ≡ v.toInt [ZMOD M] := by
  refine Int.ModEq.of_dvd hM ?_
  rw [← BitVec.toInt_signExtend_of_le hw, BitVec.toInt_eq_toNat_bmod]
  exact Int.bmod_emod.symm

end Residues

/-! ## The effective and the linear address (20_memory R43, R44) -/

/-- The number of address bits that the prefix 0x67 leaves. -/
def addrBits (a32 : Bool) : Nat := if a32 then 32 else 64

theorem two_pow_addrBits_dvd (a32 : Bool) : (2 : ℤ) ^ addrBits a32 ∣ 2 ^ 64 := by
  cases a32 <;> decide

theorem truncAddr_toNat (a32 : Bool) (x : Qword) : (truncAddr a32 x).toNat = x.toNat % 2 ^ addrBits a32 := by
  cases a32 with
  | false => exact (Nat.mod_eq_of_lt x.isLt).symm
  | true =>
    rw [truncAddr, if_pos rfl, BitVec.toNat_setWidth, BitVec.toNat_setWidth]
    exact Nat.mod_eq_of_lt ((Nat.mod_lt _ (by decide)).trans (by decide))

theorem truncAddr_modEq {a32 : Bool} {x : Qword} {X : ℤ} (hx : (x.toNat : ℤ) ≡ X [ZMOD 2 ^ addrBits a32]) :
    ((truncAddr a32 x).toNat : ℤ) ≡ X [ZMOD 2 ^ addrBits a32] := by
  rw [truncAddr_toNat]
  push_cast
  exact (Int.mod_modEq _ _).trans hx

theorem baseValue_modEq (s : State) (a32 : Bool) (r : Gpr) :
    ((baseValue s a32 r).toNat : ℤ) ≡ (readGpr s r).toNat [ZMOD 2 ^ addrBits a32] := truncAddr_modEq rfl

theorem indexValue_modEq (s : State) (a32 : Bool) (i : Option Index) :
    ((indexValue s a32 i).toNat : ℤ) ≡ indexInt s i [ZMOD 2 ^ addrBits a32] := by
  cases i with
  | none => rfl
  | some i => exact toNat_shiftLeft_modEq (two_pow_addrBits_dvd a32) _ (truncAddr_modEq rfl)

theorem dispValue_modEq {M : ℤ} (hM : M ∣ 2 ^ 64) (n : Nat) (d : Disp) :
    ((dispValue n d).toNat : ℤ) ≡ dispInt n d [ZMOD M] := by
  cases d with
  | none => rfl
  | d8 v => exact toNat_mul_modEq hM (toNat_signExtend_modEq hM (by decide) v) (toNat_ofNat_modEq hM n)
  | d32 v => exact toNat_signExtend_modEq hM (by decide) v

theorem effectiveAddress_modEq (s : State) (a32 : Bool) (n ilen : Nat) (a : MemOperand) :
    ((effectiveAddress s a32 n ilen a).toNat : ℤ) ≡ addressInt s n ilen a [ZMOD 2 ^ addrBits a32] := by
  have hM := two_pow_addrBits_dvd a32
  cases a with
  | base b d => exact truncAddr_modEq (toNat_add_modEq hM (baseValue_modEq s a32 b) (dispValue_modEq hM n d))
  | rip d =>
    exact truncAddr_modEq
      (toNat_add_modEq hM (toNat_add_modEq hM rfl (toNat_ofNat_modEq hM ilen)) (toNat_signExtend_modEq hM (by decide) d))
  | sib b i d =>
    exact truncAddr_modEq
      (toNat_add_modEq hM (toNat_add_modEq hM (baseValue_modEq s a32 b) (indexValue_modEq s a32 i))
        (dispValue_modEq hM n d))
  | sibNoBase i d =>
    exact truncAddr_modEq
      (toNat_add_modEq hM (indexValue_modEq s a32 i) (toNat_signExtend_modEq hM (by decide) d))

/-- The address operation ends with the truncation, whatever the operand. -/
theorem effectiveAddress_lt (s : State) (a32 : Bool) (n ilen : Nat) (a : MemOperand) :
    (effectiveAddress s a32 n ilen a).toNat < 2 ^ addrBits a32 := by
  cases a <;> rw [effectiveAddress, truncAddr_toNat] <;> exact Nat.mod_lt _ (by positivity)

theorem effectiveAddress_toNat (s : State) (a32 : Bool) (n ilen : Nat) (a : MemOperand) :
    ((effectiveAddress s a32 n ilen a).toNat : ℤ) = addressInt s n ilen a % 2 ^ addrBits a32 := by
  rw [← (effectiveAddress_modEq s a32 n ilen a).eq]
  exact (Int.emod_eq_of_lt (by positivity) (by exact_mod_cast effectiveAddress_lt s a32 n ilen a)).symm

/-- Only FS, GS and, outside 64-bit mode, CS have a base. -/
theorem segBase_toNat (s : State) (g : Option Seg) :
    (segBase s g).toNat =
      if g = some .fs then s.fsBase.toNat else if g = some .gs then s.gsBase.toNat
      else if g = some .cs ∧ s.mode ≠ .long64 then s.csBase.toNat else 0 := by
  rcases g with _ | (_ | _ | _ | _ | _ | _)
  case some.cs => by_cases hmode : s.mode = .long64 <;> simp [segBase, hmode]
  all_goals rfl

/-- Settles O10: each part of the address is its integer modulo 2^64, and so modulo 2^32 under 0x67. -/
theorem addressIsTheIntegerFormula : Obligations.AddressIsTheIntegerFormula := by
  intro s p n a
  refine ⟨effectiveAddress_toNat s p.a32 n _ a, ?_⟩
  rw [operandAddress, BitVec.toNat_add, segBase_toNat]

/-! ## Scaled displacements (20_memory R44) -/

/-- An integer that 32 signed bits hold is its own residue at every wider width. -/
theorem bmod_two_pow_of_int32 {w : Nat} (hw : 32 ≤ w) {x : ℤ} (hlow : -2 ^ 31 ≤ x) (hhigh : x < 2 ^ 31) :
    x.bmod (2 ^ w) = x := by
  have hpow : (2 : ℤ) ^ 32 ≤ 2 ^ w := pow_le_pow_right₀ (by decide) hw
  refine Int.bmod_eq_of_le ?_ ?_ <;> push_cast <;> omega

/-- A product of an 8-bit displacement and a factor that leaves it in 32 bits is sign-extended as it is. -/
theorem signExtend_disp8_mul (d : BitVec 8) {n : Nat} (hn : n ≤ 2 ^ 23) :
    (d.signExtend 32 * BitVec.ofNat 32 n).signExtend 64 = d.signExtend 64 * BitVec.ofNat 64 n := by
  have hd : -2 ^ 7 ≤ d.toInt ∧ d.toInt < 2 ^ 7 := ⟨BitVec.le_toInt d, BitVec.toInt_lt⟩
  have hn' : (0 : ℤ) ≤ n ∧ (n : ℤ) ≤ 2 ^ 23 := ⟨Int.natCast_nonneg n, by exact_mod_cast hn⟩
  have hlow : -2 ^ 31 ≤ d.toInt * n := by nlinarith
  have hhigh : d.toInt * n < 2 ^ 31 := by nlinarith
  have hfactor {w : Nat} (hw : 32 ≤ w) : (BitVec.ofNat w n).toInt = n := by
    rw [BitVec.toInt_ofNat', bmod_two_pow_of_int32 hw (by omega) (by omega)]
  apply BitVec.eq_of_toInt_eq
  rw [BitVec.toInt_signExtend_of_le (by decide), BitVec.toInt_mul, BitVec.toInt_mul,
    BitVec.toInt_signExtend_of_le (by decide), BitVec.toInt_signExtend_of_le (by decide), hfactor (by decide),
    hfactor (by decide), bmod_two_pow_of_int32 (by decide) hlow hhigh, bmod_two_pow_of_int32 (by decide) hlow hhigh]

theorem dispValue_d8 (n : Nat) (d : BitVec 8) (hn : n ≤ 2 ^ 23) :
    dispValue n (.d8 d) = dispValue n (.d32 (d.signExtend 32 * BitVec.ofNat 32 n)) :=
  (signExtend_disp8_mul d hn).symm

theorem fullBytes_le (v : VLen) : fullBytes v ≤ 32 := by cases v <;> decide

/-- Settles O11: the two displacements have one value, whatever base and index stand beside it. -/
theorem scaledDisp8IsItsDisp32 : Obligations.ScaledDisp8IsItsDisp32 := by
  intro s a32 v bc ilen ilen' b i d n d32
  have hn : n ≤ 2 ^ 23 := by
    have hfull := fullBytes_le v
    cases bc
    · exact hfull.trans (by decide)
    · exact (by decide : bcstBytes ≤ 2 ^ 23)
  simp only [effectiveAddress, dispValue_d8 n d hn, d32, and_self]

/-! ## Canonical addresses and the default `translate` (20_memory R47) -/

/-- Settles O12: sign extension from bit 47 adds 2^64 - 2^48 to the low 48 bits, or nothing. -/
theorem canonicalAddressesAsNumbers : Obligations.CanonicalAddressesAsNumbers := by
  intro a
  have ha := a.isLt
  rw [isCanonical, beq_iff_eq, ← BitVec.toNat_inj, BitVec.toNat_signExtend, BitVec.msb_eq_decide]
  simp only [Config.linearBits, BitVec.toNat_setWidth, decide_eq_true_eq]
  split_ifs <;> omega

theorem xlatLookup_of_nil {s : State} (h : s.xlat = []) (acc : Access) (a : Qword) : xlatLookup s acc a = none := by
  rw [xlatLookup, h]
  rfl

theorem physByte_of_unlisted {s : State} {p : Qword} (h : s.mem.read p.toNat = none) :
    physByte s p = .error (.page (Config.freePageCode s.draws)) := by
  rw [physByte, h]

/-- Without an override, `translate` is the identity on canonical addresses and refuses the others. -/
theorem readByte_of_no_override {s : State} (h : s.xlat = []) (acc : Access) (a : Qword) :
    readByte s acc a = if isCanonical a then physByte s a else .error .nonCanonical := by
  rw [readByte, xlatLookup_of_nil h]

/-- Settles O13: with no override, canonicity and the launch memory decide. -/
theorem defaultTranslateIsFlat : Obligations.DefaultTranslateIsFlat := by
  intro s acc a hxlat
  rw [readByte_of_no_override hxlat]
  refine ⟨fun hcanon => by simp [hcanon], fun hcanon => ?_⟩
  rw [if_pos hcanon]
  exact ⟨fun b hb => physByte_eq_ok_iff.2 hb, fun hnone => ⟨_, physByte_of_unlisted hnone⟩⟩

/-! ## The elements of a memory source (20_memory R41, R45) -/

theorem memSource_eq_ok_iff {v : VLen} {s : State} {p : Pfx} {m : Masking} {a : MemOperand} {src : List Dword} :
    memSource v s p m a = .ok src ↔
      ∃ bs, readOperand s (usesStackSegment s p a) (operandAddress s p (fullBytes v) a) (fullBytes v) (fullWanted s m) =
        .ok bs ∧ src = (List.range (lanesOf v)).map (dwordAt bs) := by
  rw [memSource]
  cases readOperand s (usesStackSegment s p a) (operandAddress s p (fullBytes v) a) (fullBytes v) (fullWanted s m) <;>
    simp [eq_comm]

theorem fullWanted_iff {s : State} {m : Masking} {k : Nat} :
    fullWanted s m k = true ↔ s.params.faultSuppression = false ∨ laneActive s m (k / 4) = true := by
  simp [fullWanted]

theorem bcstWanted_iff {v : VLen} {s : State} {m : Masking} {k : Nat} :
    bcstWanted v s m k = true ↔ s.params.faultSuppression = false ∨ someActive s m v = true := by
  simp [bcstWanted]

/-- Byte `k` of an active lane lies in the operand and is accessed. -/
theorem fullWanted_of_active {v : VLen} {s : State} {m : Masking} {j k : Nat} (hj : j < lanesOf v) (hk : k < 4)
    (hactive : laneActive s m j = true) : 4 * j + k < fullBytes v ∧ fullWanted s m (4 * j + k) = true := by
  have hlane : (4 * j + k) / 4 = j := by omega
  refine ⟨by unfold fullBytes; omega, fullWanted_iff.2 (.inr ?_)⟩
  rwa [hlane]

theorem map_range_getD {n j : Nat} (hj : j < n) (f : Nat → Dword) : ((List.range n).map f).getD j 0 = f j := by
  simp [hj, List.getD_eq_getElem?_getD]

/-- Bit `b` of byte `k` of a little-endian doubleword. -/
theorem dwordAt_getLsbD (bs : List Byte) (j : Nat) {k b : Nat} (hk : k < 4) (hb : b < 8) :
    (dwordAt bs j).getLsbD (8 * k + b) = (bs.getD (4 * j + k) 0).getLsbD b := by
  interval_cases k <;> simp (disch := omega) only [dwordAt, BitVec.getLsbD_append, if_pos, if_neg]
  all_goals congr 1; omega

/-- Settles O15: the bytes of an active lane are accessed, and its element is made of them. -/
theorem operandReadIsLittleEndian : Obligations.OperandReadIsLittleEndian := by
  intro v s p m a src hsrc j hj hactive k hk b hb
  obtain ⟨bs, hread, rfl⟩ := memSource_eq_ok_iff.1 hsrc
  obtain ⟨hin, hwanted⟩ := fullWanted_of_active hj hk hactive
  refine ⟨_, (readOperand_ok hread).2 _ hin hwanted, ?_⟩
  rw [map_range_getD hj, dwordAt_getLsbD bs j hk hb]

/-! ## Inactive lanes (20_memory R49) -/

/-- Two reads that agree on the four bytes of a lane give it one element. -/
theorem dwordAt_congr {bs bs' : List Byte} {j : Nat} (h : ∀ k < 4, bs'.getD (4 * j + k) 0 = bs.getD (4 * j + k) 0) :
    dwordAt bs' j = dwordAt bs j := by
  rw [dwordAt, dwordAt, h 3 (by decide), h 2 (by decide), h 1 (by decide)]
  exact congrArg _ (h 0 (by decide))

/-- A full-memory source that was read is read from another memory in which the bytes of inactive lanes are readable and the others
as they were, with the same elements of active lanes. -/
theorem memSource_of_activeBytes {v : VLen} {s : State} {p : Pfx} {m : Masking} {a : MemOperand} {src : List Dword}
    {mem' : Memory} (h : memSource v s p m a = .ok src)
    (hactive : ∀ k < fullBytes v, laneActive s m (k / 4) = true →
      readByte { s with mem := mem' } .read (operandAddress s p (fullBytes v) a + BitVec.ofNat 64 k) =
        readByte s .read (operandAddress s p (fullBytes v) a + BitVec.ofNat 64 k))
    (hinactive : ∀ k < fullBytes v, laneActive s m (k / 4) = false →
      ∃ b, readByte { s with mem := mem' } .read (operandAddress s p (fullBytes v) a + BitVec.ofNat 64 k) = .ok b) :
    ∃ src', memSource v { s with mem := mem' } p m a = .ok src' ∧
      ∀ j < lanesOf v, laneActive s m j = true → src'.getD j 0 = src.getD j 0 := by
  obtain ⟨bs, hread, rfl⟩ := memSource_eq_ok_iff.1 h
  have hbytes := (readOperand_ok hread).2
  have hread' := readOperand_congr (s' := { s with mem := mem' }) hread
    (fun k hk hwanted => by
      cases hlane : laneActive s m (k / 4) with
      | true => exact ⟨_, (hactive k hk hlane).trans (hbytes k hk hwanted)⟩
      | false => exact hinactive k hk hlane)
    (alignmentStop_none_congr rfl rfl)
  refine ⟨_, memSource_eq_ok_iff.2 ⟨_, hread', rfl⟩, fun j hj hlane => ?_⟩
  rw [map_range_getD hj, map_range_getD hj]
  refine dwordAt_congr fun k hk => ?_
  obtain ⟨hin, hwanted⟩ := fullWanted_of_active hj hk hlane
  have hlane' : laneActive s m ((4 * j + k) / 4) = true := by rwa [show (4 * j + k) / 4 = j by omega]
  exact operandReads_getD hin hwanted ((hactive _ hin hlane').trans (hbytes _ hin hwanted))

/-- Settles O28: the source is read again with the same elements of active lanes, so the lanes are the same. -/
theorem inactiveMemoryElementsCannotMatter : Obligations.InactiveMemoryElementsCannotMatter := by
  intro v p m dst a s t mem' h hmem
  obtain ⟨src, src', hlanes, rfl, hexec⟩ := exec_next_of_sameLanes (s' := { s with mem := mem' }) h id
    (fun src hsrc => by
      rw [sourceOf_memForm] at hsrc
      obtain ⟨src', hsrc', hsame⟩ :=
        memSource_of_activeBytes hsrc (fun k hk => (hmem k hk).1) (fun k hk => (hmem k hk).2)
      refine ⟨src', by rw [sourceOf_memForm, hsrc'], ?_⟩
      exact laneResults_congr (fun _ _ => rfl) (fun _ _ _ => rfl) (by simpa using hsame) rfl)
    fun _ => ⟨rfl, rfl⟩
  rw [hexec, committed_eq_instrLanes, committed_eq_instrLanes, hlanes]
  rfl

/-! ## A byte that paging refuses (20_memory R47, 60_exceptions R126, R129) -/

theorem mem_pageCodes {rs : List (Except Deny Byte)} {c : Dword} : c ∈ pageCodes rs ↔ Except.error (.page c) ∈ rs := by
  simp only [pageCodes, List.mem_filterMap]
  constructor
  · rintro ⟨(_ | d) | b, hr, h⟩ <;> cases h
    exact hr
  · exact fun h => ⟨_, h, rfl⟩

/-- The entry at a free index, cut to the length of the list, is one of the list's. -/
theorem getD_mod_length_mem {α : Type} {l : List α} (h : l ≠ []) (i : Nat) (x : α) : l.getD (i % l.length) x ∈ l := by
  have hlt : i % l.length < l.length := Nat.mod_lt _ (List.length_pos_iff.2 h)
  rw [List.getD_eq_getElem _ _ hlt]
  exact List.getElem_mem hlt

/-- #PF reports one of the accessed addresses and the code of one of the refused bytes, free ones (log 5). -/
theorem raisePage_eq {addrs : List Qword} {codes : List Dword} (s : State) (haddrs : addrs ≠ []) (hcodes : codes ≠ []) :
    ∃ x ∈ addrs, ∃ c ∈ codes, raisePage s addrs codes = .fault (.pf x c (drawn s)) :=
  ⟨_, getD_mod_length_mem haddrs _ _, _, getD_mod_length_mem hcodes _ _, rfl⟩

/-- A read of bytes of which one is refused at page level, and none as non-canonical, raises #PF. -/
theorem readOperand_of_page {s : State} {ss : Bool} {addr : Qword} {n : Nat} {wanted : Nat → Bool} {k : Nat} {c : Dword}
    (hk : k < n) (hwanted : wanted k = true) (hpage : readByte s .read (addr + BitVec.ofNat 64 k) = .error (.page c))
    (hcanon : ∀ i < n, wanted i = true → readByte s .read (addr + BitVec.ofNat 64 i) ≠ .error .nonCanonical) :
    ∃ j j' c', (j < n ∧ wanted j = true) ∧ (j' < n ∧ wanted j' = true) ∧
      readByte s .read (addr + BitVec.ofNat 64 j') = .error (.page c') ∧
      readOperand s ss addr n wanted = .error (.fault (.pf (addr + BitVec.ofNat 64 j) c' (drawn s))) := by
  have hnone : someNonCanonical (operandReads s addr n wanted) = false := by
    rw [Bool.eq_false_iff, ne_eq, someNonCanonical_iff, mem_operandReads]
    rintro ⟨i, hi, hw, hr⟩
    exact hcanon i hi hw hr
  have hcodes : pageCodes (operandReads s addr n wanted) ≠ [] :=
    List.ne_nil_of_mem (mem_pageCodes.2 (mem_operandReads.2 ⟨k, hk, hwanted, hpage⟩))
  have haddrs : ((List.range n).filter wanted).map (fun i => addr + BitVec.ofNat 64 i) ≠ [] :=
    List.ne_nil_of_mem (List.mem_map_of_mem (List.mem_filter.2 ⟨List.mem_range.2 hk, hwanted⟩))
  obtain ⟨x, hx, c', hc', hraise⟩ := raisePage_eq s haddrs hcodes
  obtain ⟨j, hj, rfl⟩ := List.mem_map.1 hx
  obtain ⟨hjn, hjw⟩ := List.mem_filter.1 hj
  obtain ⟨j', hj', hjw', hr'⟩ := mem_operandReads.1 (mem_pageCodes.1 hc')
  refine ⟨j, j', c', ⟨List.mem_range.1 hjn, hjw⟩, ⟨hj', hjw'⟩, hr', ?_⟩
  simp [readOperand, hnone, hcodes, hraise]

theorem memSource_of_error {v : VLen} {s : State} {p : Pfx} {m : Masking} {a : MemOperand}
    {o : Host.Outcome State Fault Refusal}
    (h : readOperand s (usesStackSegment s p a) (operandAddress s p (fullBytes v) a) (fullBytes v) (fullWanted s m) =
      .error o) : memSource v s p m a = .error o := by
  rw [memSource, h]

theorem bcstSource_of_error {v : VLen} {s : State} {p : Pfx} {m : Masking} {a : MemOperand}
    {o : Host.Outcome State Fault Refusal}
    (h : readOperand s (usesStackSegment s p a) (operandAddress s p bcstBytes a) bcstBytes (bcstWanted v s m) =
      .error o) : bcstSource v s p m a = .error o := by
  rw [bcstSource, h]

/-- Settles O36: the operand read raises #PF, and EXEC answers what it answers. -/
theorem refusedPageRaisesPf : Obligations.RefusedPageRaisesPf := by
  intro v p m dst a s k c henabled
  constructor
  · intro hk hwanted hpage hcanon
    obtain ⟨j, j', c', ⟨hj, hjw⟩, ⟨hj', hjw'⟩, hpage', hread⟩ := readOperand_of_page (ss := usesStackSegment s p a) hk
      (fullWanted_iff.2 hwanted) hpage fun i hi hw => hcanon i hi (fullWanted_iff.1 hw)
    refine ⟨j, j', c', hj, fullWanted_iff.1 hjw, hj', fullWanted_iff.1 hjw', hpage', ?_⟩
    exact exec_of_error (by simpa using henabled) ((sourceOf_memForm ..).trans (memSource_of_error hread))
  · intro hk hwanted hpage hcanon
    obtain ⟨j, j', c', ⟨hj, -⟩, ⟨hj', -⟩, hpage', hread⟩ := readOperand_of_page (ss := usesStackSegment s p a)
      (wanted := bcstWanted v s m) hk (bcstWanted_iff.2 hwanted) hpage fun i hi _ => hcanon i hi
    refine ⟨j, j', c', hj, hj', hpage', ?_⟩
    exact exec_of_error (by simpa using henabled) ((sourceOf_bcstForm ..).trans (bcstSource_of_error hread))

/-! ## Memory over a step (20_memory R52) -/

/-- A form that faults records the state as it was, after one draw, or with flags drawn (40_vcvttps2qq R98). -/
theorem stateAfter_of_exec_fault {i : Instr} {s : State} {f : Fault} (h : exec i s = .fault f) :
    stateAfter f = s ∨ stateAfter f = drawn s ∨ stateAfter f = drawnFlags s := by
  rcases exec_eq_fault h with hcheck | hsource | ⟨-, hsimd⟩
  · exact .inl (checkEnabled_eq_fault hcheck).1
  · rcases sourceOf_error hsource with hrefused | ⟨g, hg, hstate, -⟩
    · cases hrefused
    · cases hg
      exact hstate.imp_right .inl
  · exact .inr (.inr (raiseSimd_eq_fault hsimd).1)

/-- So does a step that faults, at the fetch or in the instruction. -/
theorem stateAfter_of_step_fault {s : State} {f : Fault} (h : step s = .fault f) :
    stateAfter f = s ∨ stateAfter f = drawn s ∨ stateAfter f = drawnFlags s := by
  cases hfetch : fetchDecode s with
  | run i => exact stateAfter_of_exec_fault (by rwa [step, hfetch] at h)
  | stop o =>
    rw [step_of_stop hfetch] at h
    subst h
    rcases fetchDecode_stop hfetch with ⟨r, hr⟩ | ⟨g, hg, hstate, -⟩
    · cases hr
    · cases hg
      exact hstate.imp_right .inl

/-- Settles O56: neither what an instruction commits nor what a fault records touches memory or `translate`. -/
theorem noStepWritesMemory : Obligations.NoStepWritesMemory := by
  intro s
  constructor
  · intro t h
    obtain ⟨i, src, -, -, rfl⟩ := step_eq_next_committed h
    exact ⟨rfl, byteAt_congr rfl rfl⟩
  · intro f h
    rcases stateAfter_of_step_fault h with hs | hs | hs <;> rw [hs] <;> exact ⟨rfl, byteAt_congr rfl rfl⟩

end Sys2Proof.Machine
end

section
/-! The decoder against the encoder, and what bytes that decode say of their fields (spec 30_encoding R60 to R71, R78). -/

namespace Sys2Proof.Machine

/-! ## The form that is read (30_encoding R78 step 5) -/

/-- The writemask that the fields name (30_encoding R70). -/
def formMask (e : Payload) : Masking := { aaa := e.aaa.toFin, z := e.z }

/-- The destination that the fields and ModRM name (30_encoding R66). -/
def formDst (e : Payload) (modrm : Byte) : VReg := vregOf e.r' e.r (modrm.extractLsb' 3 3)

/-- The source register that the fields and ModRM name (30_encoding R66). -/
def formSrc (e : Payload) (modrm : Byte) : VReg := vregOf e.x e.b (modrm.extractLsb' 0 3)

/-- Everything that a form that is read can be: SAE or the plain register form of L'L, or the broadcast or the full-memory form of
L'L with the operand that `readMem` gives. -/
theorem readForm_eq_ok_iff {p : Pfx} {e : Payload} {modrm : Byte} {bs : List Byte} {i : Instr} {rest : List Byte} :
    readForm p e modrm bs = .ok (i, rest) ↔
      (modrm.extractLsb' 6 2 = 3#2 ∧ rest = bs ∧
        (e.bc = true ∧ i = .sae512 p (formMask e) (formDst e modrm) (formSrc e modrm) ∨
          e.bc = false ∧ ∃ v, vlenOf e.ll = some v ∧
            i = regForm v p (formMask e) (formDst e modrm) (formSrc e modrm))) ∨
      (modrm.extractLsb' 6 2 ≠ 3#2 ∧ ∃ v a, vlenOf e.ll = some v ∧
        readMem (modrm.extractLsb' 6 2) (modrm.extractLsb' 0 3) e.x e.b bs = .ok (a, rest) ∧
        i = if e.bc then bcstForm v p (formMask e) (formDst e modrm) a else memForm v p (formMask e) (formDst e modrm) a) := by
  simp only [readForm, formMask, formDst, formSrc]
  by_cases hmod : modrm.extractLsb' 6 2 = 3#2
  · cases hbc : e.bc
    · cases hv : vlenOf e.ll <;> simp [hmod, eq_comm, and_comm]
    · simp [hmod, eq_comm, and_comm]
  · cases hv : vlenOf e.ll with
    | none => simp [hmod]
    | some v =>
      rcases hmem : readMem (modrm.extractLsb' 6 2) (modrm.extractLsb' 0 3) e.x e.b bs with r | ⟨a, rest'⟩
      · simp [hmod]
      · simp [hmod, and_comm, eq_comm (b := i)]

/-- The parts of the form that is read, by `mod` and b. -/
theorem readForm_parts {p : Pfx} {e : Payload} {modrm : Byte} {bs : List Byte} {i : Instr} {rest : List Byte}
    (h : readForm p e modrm bs = .ok (i, rest)) :
    instrMask i = formMask e ∧ instrDst i = formDst e modrm ∧
      (modrm.extractLsb' 6 2 = 3#2 → rest = bs ∧
        (e.bc = true → i = .sae512 p (instrMask i) (instrDst i) (formSrc e modrm)) ∧
        (e.bc = false → ∃ v, llOf v = e.ll ∧ i = regForm v p (instrMask i) (instrDst i) (formSrc e modrm))) ∧
      (modrm.extractLsb' 6 2 ≠ 3#2 → ∃ v a, llOf v = e.ll ∧
        readMem (modrm.extractLsb' 6 2) (modrm.extractLsb' 0 3) e.x e.b bs = .ok (a, rest) ∧
        (e.bc = true → i = bcstForm v p (instrMask i) (instrDst i) a) ∧
        (e.bc = false → i = memForm v p (instrMask i) (instrDst i) a)) := by
  rcases readForm_eq_ok_iff.1 h with ⟨hmod, rfl, ⟨hbc, rfl⟩ | ⟨hbc, v, hv, rfl⟩⟩ | ⟨hmod, v, a, hv, hmem, rfl⟩
  · exact ⟨rfl, rfl, fun _ => ⟨rfl, fun _ => rfl, by simp [hbc]⟩, absurd hmod⟩
  · rw [instrMask_regForm, instrDst_regForm]
    exact ⟨rfl, rfl, fun _ => ⟨rfl, by simp [hbc], fun _ => ⟨v, llOf_of_vlenOf hv, rfl⟩⟩, absurd hmod⟩
  · cases hbc : e.bc
    · rw [if_neg Bool.false_ne_true, instrMask_memForm, instrDst_memForm]
      exact ⟨rfl, rfl, fun h => absurd h hmod, fun _ => ⟨v, a, llOf_of_vlenOf hv, hmem, nofun, fun _ => rfl⟩⟩
    · rw [if_pos rfl, instrMask_bcstForm, instrDst_bcstForm]
      exact ⟨rfl, rfl, fun h => absurd h hmod, fun _ => ⟨v, a, llOf_of_vlenOf hv, hmem, fun _ => rfl, nofun⟩⟩

/-! ## Decoding what the encoder writes -/

/-- A payload that the encoder writes decodes to the form that its fields and ModRM select. -/
theorem decode_of_readForm {p : Pfx} {r x b r' z : Bool} {ll : BitVec 2} {bc : Bool} {aaa : KReg} {modrm : Byte} {bs : List Byte}
    {i : Instr} {rest : List Byte} (hm : Masking.ok ⟨aaa, z⟩ = true)
    (hform : readForm p { r := r, x := x, b := b, r' := r', vvvv := 15, z := z, ll := ll, bc := bc, aaa := BitVec.ofFin aaa }
      modrm bs = .ok (i, rest)) :
    decode (encodePfx p ++ 0x62 :: p0Byte r x b r' :: p1Byte 15 :: p2Byte z ll bc aaa :: 0x7A :: modrm :: bs) = .ok i rest := by
  simp only [decode_encodePfx, decodeEvex, readPayload_bytes r x b r' 15 z ll bc aaa hm, hform, finishDecode, if_true]

/-- What a register form's encoding decodes to: SAE whatever L'L is, or the plain form of L'L. -/
theorem decode_encodeReg {ll : BitVec 2} {bc : Bool} {p : Pfx} {m : Masking} {dst src : VReg} {i : Instr} (rest : List Byte)
    (hm : m.ok = true)
    (hi : bc = true ∧ i = .sae512 p m dst src ∨ bc = false ∧ ∃ v, vlenOf ll = some v ∧ i = regForm v p m dst src) :
    decode (encodeReg 15 ll bc p m dst src ++ rest) = .ok i rest := by
  obtain ⟨hmod, hreg, hrm⟩ := modrmByte_fields 3 (low3 dst) (low3 src)
  rw [encodeReg, List.append_assoc]
  refine decode_of_readForm hm (readForm_eq_ok_iff.2 (.inl ⟨hmod, rfl, ?_⟩))
  rw [formMask, formDst, formSrc, hreg, hrm, vregOf_bits, vregOf_bits]
  exact hi

/-- Settles O8: b with mod = 11 selects the SAE form before L'L is looked at. -/
theorem saeIgnoresVectorLengthBits : Obligations.SaeIgnoresVectorLengthBits :=
  fun _ _ _ _ _ rest hm => decode_encodeReg rest hm (.inl ⟨rfl, rfl⟩)

theorem decode_encodeReg_regForm (v : VLen) (p : Pfx) {m : Masking} (dst src : VReg) (rest : List Byte) (hm : m.ok = true) :
    decode (encodeReg 15 (llOf v) false p m dst src ++ rest) = .ok (regForm v p m dst src) rest :=
  decode_encodeReg rest hm (.inr ⟨rfl, v, vlenOf_llOf v, rfl⟩)

theorem memFields_mod_ne_3 (a : MemOperand) : (memFields a).mod ≠ 3 := by
  cases a with
  | base b d => exact dispMod_ne_3 d
  | rip d => exact (by decide : (0 : BitVec 2) ≠ 3)
  | sib b i d => exact dispMod_ne_3 d
  | sibNoBase i d => exact (by decide : (0 : BitVec 2) ≠ 3)

theorem decode_encodeMem (v : VLen) (bc : Bool) (p : Pfx) {m : Masking} (dst : VReg) {a : MemOperand} (rest : List Byte)
    (h : (m.ok && a.ok) = true) :
    decode (encodeMem 15 (llOf v) bc p m dst a ++ rest) =
      .ok (if bc then bcstForm v p m dst a else memForm v p m dst a) rest := by
  obtain ⟨hm, ha⟩ := (Bool.and_eq_true _ _).mp h
  obtain ⟨hmod, hreg, hrm⟩ := modrmByte_fields (memFields a).mod (low3 dst) (memFields a).rm
  rw [encodeMem, List.append_assoc, List.append_assoc]
  refine decode_of_readForm hm (readForm_eq_ok_iff.2 (.inr ⟨?_, v, a, vlenOf_llOf v, ?_, ?_⟩))
  · rw [hmod]
    exact memFields_mod_ne_3 a
  · rw [hmod, hrm]
    exact readMem_memFields a rest ha
  · rw [formDst, hreg, vregOf_bits, formMask]

/-- Settles O2: the encoder writes fields from which the decoder selects the same form with the same operands. -/
theorem decodeOfEncodeIsInstruction : Obligations.DecodeOfEncodeIsInstruction := by
  intro i rest h
  cases i with
  | reg128 p m dst src => exact decode_encodeReg_regForm .v128 p dst src rest h
  | mem128 p m dst a => exact decode_encodeMem .v128 false p dst rest h
  | bcst128 p m dst a => exact decode_encodeMem .v128 true p dst rest h
  | reg256 p m dst src => exact decode_encodeReg_regForm .v256 p dst src rest h
  | mem256 p m dst a => exact decode_encodeMem .v256 false p dst rest h
  | bcst256 p m dst a => exact decode_encodeMem .v256 true p dst rest h
  | reg512 p m dst src => exact decode_encodeReg_regForm .v512 p dst src rest h
  | mem512 p m dst a => exact decode_encodeMem .v512 false p dst rest h
  | bcst512 p m dst a => exact decode_encodeMem .v512 true p dst rest h
  | sae512 p m dst src => exact saeIgnoresVectorLengthBits 0 p m dst src rest h

/-- Settles O1: the decoder run on the five words. -/
theorem specWordsDecode : Obligations.SpecWordsDecode :=
  ⟨by decide, by decide, by decide, by decide, by decide⟩

/-! ## What bytes that decode say -/

/-- Settles O3: a form that is read is well-formed, and the prefixes, the six bytes up to ModRM and the operand make up its length. -/
theorem decodedIsWellFormedAndTakesIlen : Obligations.DecodedIsWellFormedAndTakesIlen := by
  intro bs i rest h
  obtain ⟨p, pre, p0, p1, p2, modrm, tail, e, rfl, hpre, -, he, hform, -⟩ := decode_ok h
  obtain ⟨hwf, operand, rfl, hlen⟩ := readForm_ok (readPayload_masking he) hform
  have hsplit : pre ++ 0x62 :: p0 :: p1 :: p2 :: 0x7A :: modrm :: (operand ++ rest) =
      (pre ++ 0x62 :: p0 :: p1 :: p2 :: 0x7A :: modrm :: operand) ++ rest := by simp
  have hilen : instrLength i = (pre ++ 0x62 :: p0 :: p1 :: p2 :: 0x7A :: modrm :: operand).length := by
    simp only [hlen, List.length_append, List.length_cons]
    omega
  rw [hsplit, hilen]
  exact ⟨hwf, by simp, List.drop_left.symm⟩

/-- Settles O6: the payload that was accepted names its bits, and the form that was read names its parts. -/
theorem fieldsAreReadFromTheirBits : Obligations.FieldsAreReadFromTheirBits := by
  intro p pre p0 p1 p2 modrm tail i rest hpre hdecode
  rw [decode_pfxBytes hpre] at hdecode
  obtain ⟨_, _, _, _, _, e, hbytes, hpayload, hform, -⟩ := decodeEvex_ok hdecode
  cases hbytes
  obtain ⟨-, rfl⟩ := readPayload_ok hpayload
  obtain ⟨hmask, hdst, hreg, hmem⟩ := readForm_parts hform
  refine ⟨⟨?_, ?_, ?_⟩, fun hmod => ?_, hmem⟩
  · rw [hdst]
    exact vregOf_val ..
  · rw [hmask]
    rfl
  · rw [hmask]
    rfl
  · obtain ⟨hrest, hsae, hplain⟩ := hreg hmod
    exact ⟨hrest, _, vregOf_val .., hsae, hplain⟩

end Sys2Proof.Machine
end

section
/-! Prefixes, memory operands and vvvv in the bytes (spec 30_encoding R65 to R67, R72, R73). -/

namespace Sys2Proof.Machine

/-! ## Memory operands (30_encoding R65 to R67, 20_memory R43) -/

theorem indexOf_eq_none_iff (x : Bool) (idx : BitVec 3) (scale : BitVec 2) :
    indexOf x idx scale = none ↔ x = false ∧ idx = 4#3 := by
  have hfour : gprOf x idx = 4 ↔ x = false ∧ idx = 4#3 := by revert x idx; decide
  rw [← hfour, indexOf]
  split_ifs with h <;> simp [h]

theorem indexOf_eq_some {x : Bool} {idx : BitVec 3} {scale : BitVec 2} {j : Index} (h : indexOf x idx scale = some j) :
    j.reg.val = 8 * bitNat x + idx.toNat ∧ j.scale.val = scale.toNat := by
  rw [indexOf] at h
  split_ifs at h
  cases h
  exact ⟨gprOf_val .., rfl⟩

/-- mod = 00 with rm = 101: RIP-relative. -/
theorem readMem_rip {mod : BitVec 2} {rm : BitVec 3} {x b : Bool} {bs : List Byte} {a : MemOperand} {rest : List Byte}
    (hsib : rm ≠ 4) (hrip : mod = 0 ∧ rm = 5) (h : readMem mod rm x b bs = .ok (a, rest)) :
    ∃ d, a = .rip d ∧ bs = disp32Bytes d ++ rest := by
  rw [readMem.eq_def, if_neg hsib, if_pos hrip] at h
  split at h
  · next hd => cases h; exact ⟨_, rfl, takeDisp32_ok hd⟩
  · cases h

/-- A base register without a SIB byte. -/
theorem readMem_base {mod : BitVec 2} {rm : BitVec 3} {x b : Bool} {bs : List Byte} {a : MemOperand} {rest : List Byte}
    (hmod : mod ≠ 3) (hsib : rm ≠ 4) (hrip : ¬(mod = 0 ∧ rm = 5)) (h : readMem mod rm x b bs = .ok (a, rest)) :
    ∃ d, a = .base (gprOf b rm) d ∧ dispMod d = mod ∧ bs = dispBytes d ++ rest := by
  rw [readMem.eq_def, if_neg hsib, if_neg hrip] at h
  split at h
  · next hd => cases h; exact ⟨_, rfl, takeDisp_ok hmod hd⟩
  · cases h

/-- rm = 100: a SIB byte, with a base register or with a 32-bit displacement in its place. -/
theorem readMem_sib {mod : BitVec 2} {x b : Bool} {bs : List Byte} {a : MemOperand} {rest : List Byte}
    (hmod : mod ≠ 3) (h : readMem mod 4 x b bs = .ok (a, rest)) :
    ∃ (sib : Byte) (tail : List Byte), bs = sib :: tail ∧
      ((mod = 0 ∧ sib.extractLsb' 0 3 = 5#3) ∧
          (∃ d, a = .sibNoBase (indexOf x (sib.extractLsb' 3 3) (sib.extractLsb' 6 2)) d ∧ tail = disp32Bytes d ++ rest) ∨
        ¬(mod = 0 ∧ sib.extractLsb' 0 3 = 5#3) ∧
          ∃ d, a = .sib (gprOf b (sib.extractLsb' 0 3)) (indexOf x (sib.extractLsb' 3 3) (sib.extractLsb' 6 2)) d ∧
            dispMod d = mod ∧ tail = dispBytes d ++ rest) := by
  rw [readMem.eq_def, if_pos rfl] at h
  cases bs with
  | nil => cases h
  | cons sib tail =>
    refine ⟨sib, tail, rfl, ?_⟩
    dsimp only at h
    split_ifs at h with hbase
    · split at h
      · next hd => cases h; exact .inl ⟨hbase, _, rfl, takeDisp32_ok hd⟩
      · cases h
    · split at h
      · next hd => cases h; exact .inr ⟨hbase, _, rfl, takeDisp_ok hmod hd⟩
      · cases h

/-- Settles O7: RIP-relative, a base register, or a SIB byte, as mod and rm say. -/
theorem memoryOperandIsReadFromItsBits : Obligations.MemoryOperandIsReadFromItsBits := by
  intro mod rm x b bs a rest hmod h
  refine ⟨fun hsib h0 h5 => readMem_rip hsib ⟨h0, h5⟩ h, fun hsib hrip => ?_, ?_⟩
  · obtain ⟨d, ha, hd, hbs⟩ := readMem_base hmod hsib hrip h
    exact ⟨_, d, ha, gprOf_val .., hd, hbs⟩
  · rintro rfl
    obtain ⟨sib, tail, hbs, hoperand⟩ := readMem_sib hmod h
    refine ⟨sib, tail, _, hbs, indexOf_eq_none_iff .., fun j => indexOf_eq_some, fun h0 h5 => ?_, fun hbase => ?_⟩
    · rcases hoperand with ⟨-, hdisp⟩ | ⟨hbase, -⟩
      · exact hdisp
      · exact absurd ⟨h0, h5⟩ hbase
    · rcases hoperand with ⟨hno, -⟩ | ⟨-, d, ha, hd, htail⟩
      · exact absurd hno hbase
      · exact ⟨_, d, ha, gprOf_val .., hd, htail⟩

/-! ## Prefixes (30_encoding R72) -/

theorem segOfByte_eq_some {b : Byte} {g : Seg} (h : segOfByte b = some g) : b = segByte g := by
  unfold segOfByte at h
  split_ifs at h <;> cases h <;> assumption

theorem segOfByte_segByte (g : Seg) : segOfByte (segByte g) = some g := by cases g <;> rfl

theorem segByte_ne_evex (g : Seg) : segByte g ≠ 0x62 := by cases g <;> decide

/-- A legal spelling without a segment override stays legal when one follows. -/
theorem pfxBytes_append_seg {q : Pfx} {pre : List Byte} (h : PfxBytes q pre) (hseg : q.seg = none) (g : Seg) :
    PfxBytes { q with seg := some g } (pre ++ [segByte g]) := by
  obtain ⟨seg, a32⟩ := q
  obtain rfl : seg = none := hseg
  rcases h with rfl | ⟨g', hg', -⟩
  · cases a32
    · exact .inl rfl
    · exact .inr ⟨g, rfl, rfl⟩
  · cases hg'

/-- A legal spelling without 0x67 stays legal when one follows. -/
theorem pfxBytes_append_a32 {q : Pfx} {pre : List Byte} (h : PfxBytes q pre) (ha32 : q.a32 = false) :
    PfxBytes { q with a32 := true } (pre ++ [0x67]) := by
  obtain ⟨seg, a32⟩ := q
  obtain rfl : a32 = false := ha32
  rcases h with rfl | ⟨g', hg', -⟩
  · cases seg <;> exact .inl rfl
  · cases hg'

/-- A scan that goes on from a legal spelling ends, at a byte 0x62, in a legal spelling. -/
theorem pfxBytes_of_scanPfx {q p : Pfx} {pre bs tail : List Byte} (hpre : PfxBytes q pre) (h : scanPfx q bs = .ok (p, tail)) :
    ∃ pre', PfxBytes p (pre ++ pre') ∧ bs = pre' ++ 0x62 :: tail := by
  induction bs generalizing q pre with
  | nil => cases h
  | cons b bs ih =>
    rw [scanPfx] at h
    by_cases hb : b = 0x62
    · rw [if_pos hb] at h
      cases h
      exact ⟨[], by rwa [List.append_nil], by rw [hb]; rfl⟩
    · rw [if_neg hb] at h
      have hnext : ∀ {q'}, PfxBytes q' (pre ++ [b]) → scanPfx q' bs = .ok (p, tail) →
          ∃ pre', PfxBytes p (pre ++ pre') ∧ b :: bs = pre' ++ 0x62 :: tail := by
        intro q' hq' h'
        obtain ⟨pre', hp, hbs⟩ := ih hq' h'
        exact ⟨b :: pre', by simpa using hp, by rw [hbs]; rfl⟩
      cases hg : segOfByte b with
      | some g =>
        simp only [hg] at h
        split_ifs at h with hseg
        refine hnext ?_ h
        rw [segOfByte_eq_some hg]
        exact pfxBytes_append_seg hpre (by simpa using hseg) g
      | none =>
        simp only [hg] at h
        split_ifs at h with h67 ha32
        refine hnext ?_ h
        rw [h67]
        exact pfxBytes_append_a32 hpre (by simpa using ha32)

/-- Settles O55: the scan keeps what it has read legal, and it reads every legal spelling. -/
theorem prefixesAreReadFromTheirBytes : Obligations.PrefixesAreReadFromTheirBytes := by
  intro bs p tail
  constructor
  · exact pfxBytes_of_scanPfx (q := {}) (pre := []) (.inl rfl)
  · rintro ⟨pre, hpre, rfl⟩
    rw [scanPfx_pfxBytes hpre]
    rfl

/-! ## The vvvv field (30_encoding R73) -/

/-- Bytes whose prefixes and payload are accepted, with another vvvv: the same form is read, and vvvv decides. -/
theorem decode_withVvvv {p : Pfx} {p0 p1 p2 o modrm : Byte} {bs tail : List Byte} {e : Payload}
    (hscan : scanPfx {} bs = .ok (p, p0 :: p1 :: p2 :: o :: modrm :: tail)) (he : readPayload p0 p1 p2 o = .ok e) (v : BitVec 4) :
    decode (withVvvv v bs) = finishDecode { e with vvvv := v } (readForm p e modrm tail) := by
  obtain ⟨pre, rfl, -, hread, hwith⟩ := scanPfx_ok hscan
  rw [hwith, withVvvv_evex, decode, hread]
  simp only [decodeEvex, readPayload_withVvvv v he, readForm_withVvvv]

/-- Bytes that decode to #UD are a form but for vvvv. -/
theorem decode_eq_udVvvv {bs : List Byte} (h : decode bs = .udVvvv) :
    ∃ p p0 p1 p2 o modrm tail e, scanPfx {} bs = .ok (p, p0 :: p1 :: p2 :: o :: modrm :: tail) ∧
      readPayload p0 p1 p2 o = .ok e ∧ ∃ i rest, readForm p e modrm tail = .ok (i, rest) := by
  unfold decode at h
  split at h
  · cases h
  · next p bytes hscan =>
    unfold decodeEvex at h
    split at h
    · next p0 p1 p2 o modrm tail =>
      split at h
      · cases h
      · next e he =>
        refine ⟨p, p0, p1, p2, o, modrm, tail, e, hscan, he, ?_⟩
        rcases hform : readForm p e modrm tail with r | ⟨i, rest⟩
        · rw [hform] at h; cases h
        · exact ⟨i, rest, rfl⟩
    · cases h

/-- Settles O5: #UD comes after every other check, so vvvv = 1111b completes the form. -/
theorem decodeUdOnlyForVvvv : Obligations.DecodeUdOnlyForVvvv := by
  intro bs h
  obtain ⟨p, p0, p1, p2, o, modrm, tail, e, hscan, he, i, rest, hform⟩ := decode_eq_udVvvv h
  refine ⟨i, rest, ?_⟩
  rw [decode_withVvvv hscan he, hform]
  rfl

/-- The bytes of a form with a vvvv other than 1111b decode to #UD. -/
theorem decode_withVvvv_ne {bs : List Byte} {i : Instr} {rest : List Byte} {v : BitVec 4} (h : decode bs = .ok i rest)
    (hv : v ≠ 15) : decode (withVvvv v bs) = .udVvvv := by
  obtain ⟨p, -, p0, p1, p2, modrm, tail, e, -, -, hscan, he, hform, -⟩ := decode_ok h
  rw [decode_withVvvv hscan he, hform]
  exact if_neg hv

/-- Settles O4: the fetched bytes decode to #UD, which the step raises on the state as it is. -/
theorem vvvvOtherThan1111RaisesUd : Obligations.VvvvOtherThan1111RaisesUd := by
  intro s bs i rest v hmode hdecode hv hfetch
  have hud : fetchDecode s = .stop (raise (.ud .vvvv) s) := by
    rw [fetchDecode, if_neg (not_not.2 hmode), hfetch, decode_withVvvv_ne hdecode hv]
  exact step_of_stop hud

end Sys2Proof.Machine
end

section
/-! The step on the bytes at pc: the neighbouring encodings, the instruction that it runs, the other modes; and the segment overrides
without a base (spec 30_encoding R72 to R78, R81). -/

namespace Sys2Proof.Machine

/-! ## The neighbouring encodings (30_encoding R71, R72, R74) -/

/-- Bytes that are rejected, for another reason than that they end too soon, stop the step with the name of the rejection. -/
theorem step_of_reject {s : State} {r : Reject} (hmode : s.mode = .long64) (hdecode : decode (fetchWindow s).1 = .reject r)
    (hr : r ≠ .short) : step s = .refused (.encoding r) := by
  refine step_of_stop ?_
  rw [fetchDecode, if_neg (not_not.2 hmode), hdecode]
  dsimp only
  split
  · exact absurd rfl hr
  · rfl

/-- So do fetched bytes of which a first part is rejected whatever follows. -/
theorem step_of_fetchGives {s : State} {bs : List Byte} {r : Reject} (hfetch : FetchGives s bs) (hr : r ≠ .short)
    (hdecode : ∀ tail, decode (bs ++ tail) = .reject r) : step s = .refused (.encoding r) := by
  obtain ⟨hmode, tail, hwindow⟩ := hfetch
  exact step_of_reject hmode (by rw [hwindow, hdecode]) hr

/-- Bytes that the scan rejects after legal prefixes. -/
theorem decode_of_scanPfx_error {q : Pfx} {pre bs : List Byte} {r : Reject} (hpre : PfxBytes q pre)
    (h : scanPfx q bs = .error r) : decode (pre ++ bs) = .reject r := by
  rw [decode, scanPfx_pfxBytes hpre, h]

theorem scanPfx_of_otherByte (q : Pfx) {b : Byte} (bs : List Byte) (hevex : b ≠ 0x62) (hseg : segOfByte b = none)
    (h67 : b ≠ 0x67) : scanPfx q (b :: bs) = .error (rejectOfByte b) := by
  rw [scanPfx, if_neg hevex, hseg]
  exact if_neg h67

theorem scanPfx_repeatedSeg {q : Pfx} (h : q.seg.isSome = true) (g : Seg) (bs : List Byte) :
    scanPfx q (segByte g :: bs) = .error .repeatedSegPfx := by
  rw [scanPfx, if_neg (segByte_ne_evex g), segOfByte_segByte]
  exact if_pos h

theorem scanPfx_repeatedAddr {q : Pfx} (h : q.a32 = true) (bs : List Byte) :
    scanPfx q (0x67 :: bs) = .error .repeatedAddrPfx := by
  rw [scanPfx, if_neg (by decide)]
  exact if_pos h

theorem rejectOfByte_ne_short (b : Byte) : rejectOfByte b ≠ .short := by
  unfold rejectOfByte
  split_ifs <;> simp

/-- The prefixes that R74 rejects are neither 0x62 nor legal prefixes. -/
theorem illegalPfx_bytes {b : Byte} (h : b = 0xF0 ∨ b = 0x66 ∨ b = 0xF2 ∨ b = 0xF3 ∨ b.extractLsb' 4 4 = 4#4) :
    b ≠ 0x62 ∧ segOfByte b = none ∧ b ≠ 0x67 := by
  revert b
  decide

theorem readPayload_ne_short (p0 p1 p2 o : Byte) : readPayload p0 p1 p2 o ≠ .error .short := by
  unfold readPayload
  split_ifs <;> simp

/-- L'L = 11 where it selects a length: no form. -/
theorem readForm_of_reservedLength (p : Pfx) {e : Payload} {modrm : Byte} (bs : List Byte) (hll : e.ll = 3#2)
    (hsae : ¬(e.bc = true ∧ modrm.extractLsb' 6 2 = 3#2)) : readForm p e modrm bs = .error .reservedLength := by
  have hv : vlenOf e.ll = none := by rw [hll]; rfl
  by_cases hmod : modrm.extractLsb' 6 2 = 3#2
  · have hbc : ¬e.bc = true := fun hbc => hsae ⟨hbc, hmod⟩
    simp [readForm, hmod, hbc, hv]
  · simp [readForm, hmod, hv]

/-- Settles O9: the scan, the payload check or the form selection rejects the bytes, whatever follows them. -/
theorem neighbouringEncodingsAreRefused : Obligations.NeighbouringEncodingsAreRefused := by
  refine ⟨fun s q pre b hpre hb hfetch => ?_, fun s q pre p0 p1 p2 o modrm hpre hfetch hfields => ?_,
    fun s q pre g hpre hseg hfetch => ?_, fun s q pre hpre ha32 hfetch => ?_⟩
  · obtain ⟨hevex, hseg, h67⟩ := illegalPfx_bytes hb
    refine ⟨_, step_of_fetchGives hfetch (rejectOfByte_ne_short b) fun tail => ?_⟩
    rw [List.append_assoc]
    exact decode_of_scanPfx_error hpre (scanPfx_of_otherByte q tail hevex hseg h67)
  · have hdecode : ∀ tail, decode (pre ++ [0x62, p0, p1, p2, o, modrm] ++ tail) =
        decodeEvex q (p0 :: p1 :: p2 :: o :: modrm :: tail) := fun tail => by
      rw [List.append_assoc]
      exact decode_pfxBytes hpre _
    cases hpayload : readPayload p0 p1 p2 o with
    | error r =>
      refine ⟨r, step_of_fetchGives hfetch (fun hr => readPayload_ne_short p0 p1 p2 o (hr ▸ hpayload)) fun tail => ?_⟩
      rw [hdecode, decodeEvex, hpayload]
    | ok e =>
      obtain ⟨⟨h0, hmap, hw, h1, hpp, ho, hv', hz⟩, he⟩ := readPayload_ok hpayload
      have hlength : e.ll = 3#2 ∧ ¬(e.bc = true ∧ modrm.extractLsb' 6 2 = 3#2) := by
        rw [he]
        simpa only [h0, hmap, hw, h1, hpp, ho, hv', hz, ne_eq, not_true, false_or, Bool.false_eq_true, Bool.true_eq_false]
          using hfields
      refine ⟨.reservedLength, step_of_fetchGives hfetch (by decide) fun tail => ?_⟩
      rw [hdecode, decodeEvex, hpayload]
      simp only [readForm_of_reservedLength q tail hlength.1 hlength.2, finishDecode]
  · refine step_of_fetchGives hfetch (by decide) fun tail => ?_
    rw [List.append_assoc]
    exact decode_of_scanPfx_error hpre (scanPfx_repeatedSeg hseg g tail)
  · refine step_of_fetchGives hfetch (by decide) fun tail => ?_
    rw [List.append_assoc]
    exact decode_of_scanPfx_error hpre (scanPfx_repeatedAddr ha32 tail)

/-! ## The instruction that a step runs (30_encoding R78, R75) -/

/-- Settles O43: past the checks of the mode and of pc the fetch gives the decoded instruction. -/
theorem stepRunsTheDecodedInstruction : Obligations.StepRunsTheDecodedInstruction := by
  intro s i rest hmode hdecode hlt
  have hrun : fetchDecode s = .run i := by
    rw [fetchDecode, if_neg (not_not.2 hmode), hdecode]
    exact if_pos hlt
  rw [step, hrun]

/-- Settles O44: bytes that lie at pc begin the window, and the decoder gives back what they encode. -/
theorem stepRunsTheBytesInMemory : Obligations.StepRunsTheBytesInMemory := by
  intro s i hmode hwf hlt hbytes
  have hlen : (encode i).length = instrLength i := Laws.Length.all i
  have hfits : (encode i).length ≤ windowBytes := hlen ▸ (instrLength_bounds i).2.trans (by decide)
  obtain ⟨tail, hwindow⟩ : ∃ tail, (fetchWindow s).1 = encode i ++ tail := fetchFrom_of_readable hfits (hlen ▸ hbytes)
  refine stepRunsTheDecodedInstruction s i tail hmode ?_ hlt
  rw [hwindow]
  exact decodeOfEncodeIsInstruction i tail hwf

/-- Settles O40: the fetch and the enables of every form look at the mode first. -/
theorem otherModesAreRefused : Obligations.OtherModesAreRefused := by
  intro s hmode
  constructor
  · exact step_of_stop (if_pos hmode)
  · intro i
    have hcheck : checkEnabled (instrVLen i) s = some (.refused (.mode s.mode)) := if_pos hmode
    simp only [exec_eq_execForm, execForm, hcheck]

/-! ## Segment overrides without a base (30_encoding R81) -/

theorem exec_memForm (v : VLen) (p : Pfx) (m : Masking) (dst : VReg) (a : MemOperand) (s : State) :
    exec (memForm v p m dst a) s = execMem v p m dst a s := by cases v <;> rfl

theorem exec_bcstForm (v : VLen) (p : Pfx) (m : Masking) (dst : VReg) (a : MemOperand) (s : State) :
    exec (bcstForm v p m dst a) s = execBcst v p m dst a s := by cases v <;> rfl

/-- The operand matters only where the form is enabled. -/
theorem execForm_congr {v : VLen} {sae : Bool} {ilen : Nat} {m : Masking} {dst : VReg} {s : State}
    {operand operand' : Except (Host.Outcome State Fault Refusal) (List Dword)} (h : Enabled v s → operand = operand') :
    execForm v sae ilen m dst s operand = execForm v sae ilen m dst s operand' := by
  cases hcheck : checkEnabled v s with
  | some o => simp only [execForm, hcheck]
  | none => rw [h ((checkEnabled_eq_none_iff v s).1 hcheck)]

theorem segHasBase_eq_false {g : Seg} (hfs : g ≠ .fs) (hgs : g ≠ .gs) : segHasBase g = false := by
  cases g with
  | es | cs | ss | ds => rfl
  | fs => exact absurd rfl hfs
  | gs => exact absurd rfl hgs

/-- In 64-bit mode an override other than FS and GS adds no base. -/
theorem segBase_eq_zero {s : State} {g : Seg} (hmode : s.mode = .long64) (hg : segHasBase g = false) : segBase s (some g) = 0 := by
  cases g with
  | es | ss | ds => rfl
  | cs => exact if_pos hmode
  | fs | gs => cases hg

/-- The stack segment decides only which fault a refused operand raises. -/
theorem readOperand_ok_anySegment {s : State} {ss : Bool} {addr : Qword} {n : Nat} {wanted : Nat → Bool} {bs : List Byte}
    (h : readOperand s ss addr n wanted = .ok bs) (ss' : Bool) : readOperand s ss' addr n wanted = .ok bs := by
  unfold readOperand at h ⊢
  dsimp only at h ⊢
  split_ifs at h ⊢ <;> exact h

/-- An operand is read alike under any two overrides without a base, where they are ignored or under one of them it can be read. -/
theorem readOperand_override {s : State} {g g' : Seg} {a32 : Bool} {a : MemOperand} {n n' : Nat} {wanted : Nat → Bool}
    (hmode : s.mode = .long64) (hg : segHasBase g = false) (hg' : segHasBase g' = false)
    (h : s.params.segOverrideIgnored = true ∨
      ∃ bs, readOperand s (usesStackSegment s ⟨some g, a32⟩ a) (operandAddress s ⟨some g, a32⟩ n a) n' wanted = .ok bs) :
    readOperand s (usesStackSegment s ⟨some g', a32⟩ a) (operandAddress s ⟨some g', a32⟩ n a) n' wanted =
      readOperand s (usesStackSegment s ⟨some g, a32⟩ a) (operandAddress s ⟨some g, a32⟩ n a) n' wanted := by
  have haddr : operandAddress s ⟨some g', a32⟩ n a = operandAddress s ⟨some g, a32⟩ n a := by
    rw [operandAddress, operandAddress, segBase_eq_zero hmode hg, segBase_eq_zero hmode hg']
    rfl
  rw [haddr]
  rcases h with hignored | ⟨bs, hread⟩
  · rw [usesStackSegment_of_ignored (p := ⟨some g', a32⟩) (p' := ⟨some g, a32⟩) hignored rfl rfl hg' hg]
  · rw [hread, readOperand_ok_anySegment hread]

theorem bcstSource_ok {v : VLen} {s : State} {p : Pfx} {m : Masking} {a : MemOperand} {src : List Dword}
    (h : bcstSource v s p m a = .ok src) :
    ∃ bs, readOperand s (usesStackSegment s p a) (operandAddress s p bcstBytes a) bcstBytes (bcstWanted v s m) = .ok bs := by
  rw [bcstSource] at h
  split at h
  · next bs hread => exact ⟨bs, hread⟩
  · cases h

section Overrides

variable {v : VLen} {m : Masking} {dst : VReg} {a : MemOperand} {a32 : Bool} {s : State} {g g' : Seg}

theorem exec_memForm_override (hg : segHasBase g = false) (hg' : segHasBase g' = false)
    (h : s.params.segOverrideIgnored = true ∨ ∃ t, exec (memForm v ⟨some g, a32⟩ m dst a) s = .next t) :
    exec (memForm v ⟨some g', a32⟩ m dst a) s = exec (memForm v ⟨some g, a32⟩ m dst a) s := by
  rw [exec_memForm, exec_memForm]
  refine execForm_congr fun henabled => ?_
  rw [memSource, memSource, readOperand_override henabled.1 hg hg' (h.imp_right fun ⟨t, ht⟩ => ?_)]
  obtain ⟨-, src, hsrc, -⟩ := exec_eq_next_iff.1 ht
  obtain ⟨bs, hread, -⟩ := memSource_eq_ok_iff.1 ((sourceOf_memForm ..).symm.trans hsrc)
  exact ⟨bs, hread⟩

theorem exec_bcstForm_override (hg : segHasBase g = false) (hg' : segHasBase g' = false)
    (h : s.params.segOverrideIgnored = true ∨ ∃ t, exec (bcstForm v ⟨some g, a32⟩ m dst a) s = .next t) :
    exec (bcstForm v ⟨some g', a32⟩ m dst a) s = exec (bcstForm v ⟨some g, a32⟩ m dst a) s := by
  rw [exec_bcstForm, exec_bcstForm]
  refine execForm_congr fun henabled => ?_
  rw [bcstSource, bcstSource, readOperand_override henabled.1 hg hg' (h.imp_right fun ⟨t, ht⟩ => ?_)]
  obtain ⟨-, src, hsrc, -⟩ := exec_eq_next_iff.1 ht
  exact bcstSource_ok ((sourceOf_bcstForm ..).symm.trans hsrc)

end Overrides

/-- Settles O57: register forms do not look at the override, and the operand of a memory form is read alike. -/
theorem overridesWithoutBaseAreInterchangeable : Obligations.OverridesWithoutBaseAreInterchangeable := by
  intro v m dst src a a32 s g g' hfs hgs hfs' hgs'
  have hg : segHasBase g = false := segHasBase_eq_false hfs hgs
  have hg' : segHasBase g' = false := segHasBase_eq_false hfs' hgs'
  refine ⟨⟨by cases v <;> rfl, rfl⟩, fun hignored => ⟨?_, ?_⟩, fun t => ⟨fun ht => ?_, fun ht => ?_⟩⟩
  · exact exec_memForm_override hg' hg (.inl hignored)
  · exact exec_bcstForm_override hg' hg (.inl hignored)
  · exact (exec_memForm_override hg hg' (.inr ⟨t, ht⟩)).trans ht
  · exact (exec_bcstForm_override hg hg' (.inr ⟨t, ht⟩)).trans ht

end Sys2Proof.Machine
end

section
/-! The conversion of one element against exact rational arithmetic (spec 40_vcvttps2qq R91 to R94). -/

namespace Sys2Proof.Machine

/-! ## Truncation of a signed quotient (00_scope R11) -/

/-- A magnitude with a sign. -/
def applySign {α : Type} [Neg α] (neg : Bool) (a : α) : α := if neg then -a else a

theorem truncate_neg (q : ℚ) : truncate (-q) = -truncate q := by
  rcases lt_trichotomy q 0 with hq | rfl | hq
  · rw [truncate, truncate, if_pos (by linarith), if_neg (by linarith), Int.floor_neg]
  · simp [truncate]
  · rw [truncate, truncate, if_neg (by linarith), if_pos hq.le, Int.ceil_neg]

/-- Truncation divides the magnitude with remainder. -/
theorem truncate_applySign_div (neg : Bool) (n d : Nat) :
    truncate (applySign neg ((n : ℚ) / d)) = applySign neg ((n / d : Nat) : ℤ) := by
  have hpos : truncate ((n : ℚ) / d) = ((n / d : Nat) : ℤ) := by
    rw [truncate, if_pos (by positivity), Rat.floor_natCast_div_natCast]
    rfl
  cases neg with
  | false => exact hpos
  | true => exact (truncate_neg _).trans (congrArg _ hpos)

/-- Truncation is exact where there is no remainder. -/
theorem truncate_applySign_div_ne_iff (neg : Bool) (n : Nat) {d : Nat} (hd : 0 < d) :
    (truncate (applySign neg ((n : ℚ) / d)) : ℚ) ≠ applySign neg ((n : ℚ) / d) ↔ n % d ≠ 0 := by
  have hexact : ((n / d : Nat) : ℚ) = (n : ℚ) / d ↔ n % d = 0 := by
    rw [eq_div_iff (by positivity), ← Nat.dvd_iff_mod_eq_zero]
    exact_mod_cast (Nat.dvd_iff_div_mul_eq n d).symm
  rw [truncate_applySign_div, ne_eq, ne_eq, ← hexact]
  cases neg with
  | false => exact Iff.rfl
  | true => simp only [applySign, if_true, Int.cast_neg, Int.cast_natCast, neg_inj]

/-! ## Magnitudes that 64 signed bits hold (40_vcvttps2qq R91, R93) -/

/-- A magnitude that, with its sign, is a 64-bit two's-complement number. -/
def Fits (neg : Bool) (k : Nat) : Prop := k < 2 ^ 63 ∨ neg = true ∧ k = 2 ^ 63

theorem fits_iff (neg : Bool) (k : Nat) :
    Fits neg k ↔ -2 ^ 63 ≤ applySign neg (k : ℤ) ∧ applySign neg (k : ℤ) < 2 ^ 63 := by
  cases neg with
  | false =>
    simp only [Fits, applySign, Bool.false_eq_true, false_and, or_false, if_false]
    omega
  | true =>
    simp only [Fits, applySign, true_and, if_true]
    omega

theorem signedResult_toInt {neg : Bool} {k : Nat} (h : Fits neg k) : (signedResult neg k).toInt = applySign neg (k : ℤ) := by
  have hword : signedResult neg k = BitVec.ofInt 64 (applySign neg (k : ℤ)) := by
    cases neg with
    | false => exact (BitVec.ofInt_natCast 64 k).symm
    | true => simp [signedResult, applySign, BitVec.ofInt_neg]
  obtain ⟨hlow, hhigh⟩ := (fits_iff neg k).1 h
  rw [hword, BitVec.toInt_ofInt, Int.bmod_eq_of_le] <;> push_cast <;> omega

theorem signedResult_not (neg : Bool) (k : Nat) : signedResult (!neg) k = -signedResult neg k := by
  cases neg with
  | false => rfl
  | true => exact (neg_neg _).symm

/-- The conversion of the signed quotient of two numbers: its truncation where that fits, and else the invalid response. -/
def ConvertsQuotient (c : Cvt) (neg : Bool) (n d : Nat) : Prop :=
  (Fits neg (n / d) → c = { r := signedResult neg (n / d), ie := false, pe := n % d != 0 }) ∧
    (¬Fits neg (n / d) → c = cvtInvalid)

/-- Quotients below 2^63 fit with either sign. -/
theorem convertsQuotient_of_lt {c : Cvt} {neg : Bool} {n d : Nat} (hlt : n / d < 2 ^ 63)
    (hc : c = { r := signedResult neg (n / d), ie := false, pe := n % d != 0 }) : ConvertsQuotient c neg n d :=
  ⟨fun _ => hc, fun h => absurd (.inl hlt) h⟩

/-! ## The cases of `cvtt` (40_vcvttps2qq R91, R92) -/

theorem f32Exp_lt (x : Dword) : f32Exp x < 2 ^ 8 := BitVec.isLt _

theorem f32Frac_lt (x : Dword) : f32Frac x < 2 ^ 23 := BitVec.isLt _

theorem cvtt_of_special {x : Dword} (h : f32Exp x = 255) (daz : Bool) : cvtt x daz = cvtInvalid := if_pos h

theorem cvtt_of_denormal {x : Dword} (h : f32Exp x = 0) (daz : Bool) :
    cvtt x daz = { r := 0, ie := false, pe := f32Frac x != 0 && !daz } := by
  rw [cvtt, if_neg (by omega), if_pos h]

theorem cvtt_of_normal {x : Dword} (h0 : f32Exp x ≠ 0) (h255 : f32Exp x ≠ 255) (daz : Bool) :
    cvtt x daz = cvtNormal (f32Sign x) (f32Exp x) (f32Frac x) := by
  rw [cvtt, if_neg h255, if_neg h0]

section Normal

variable {e : Nat} (neg : Bool) (f : Nat)

/-- Below 1 nothing is left but the precision signal. -/
theorem cvtNormal_below_one (he : e < 127) : cvtNormal neg e f = { r := 0, ie := false, pe := true } := by
  rw [cvtNormal, if_neg (by omega), if_neg (by omega), if_neg (by omega)]

theorem cvtNormal_fraction (hlow : 127 ≤ e) (hhigh : e < 150) :
    cvtNormal neg e f =
      { r := signedResult neg ((2 ^ 23 + f) / 2 ^ (150 - e)), ie := false, pe := (2 ^ 23 + f) % 2 ^ (150 - e) != 0 } := by
  rw [cvtNormal, if_neg (by omega), if_neg (by omega), if_pos hlow, Nat.shiftRight_eq_div_pow]

theorem cvtNormal_integer (hlow : 150 ≤ e) (hhigh : e < 190) :
    cvtNormal neg e f = { r := signedResult neg ((2 ^ 23 + f) * 2 ^ (e - 150)), ie := false, pe := false } := by
  rw [cvtNormal, if_neg (by omega), if_pos hlow, Nat.shiftLeft_eq]

/-- Above the range: -2^63 alone is valid. -/
theorem cvtNormal_large (he : 190 ≤ e) :
    cvtNormal neg e f =
      if neg && e == 190 && f == 0 then { r := 0x8000000000000000#64, ie := false, pe := false } else cvtInvalid :=
  if_pos he

end Normal

/-! ## A pattern as a signed quotient (40_vcvttps2qq R92) -/

/-- The significand, as a number. -/
def f32Sig (x : Dword) : Nat := if f32Exp x = 0 then f32Frac x else 2 ^ 23 + f32Frac x

/-- The exponent that scales the significand; a denormal has that of biased exponent 1. -/
def f32Scale (x : Dword) : Nat := if f32Exp x = 0 then 1 else f32Exp x

/-- The numerator of the magnitude. -/
def f32Num (x : Dword) : Nat := f32Sig x * 2 ^ (f32Scale x - 150)

/-- The denominator of the magnitude: 1 where the value is an integer by its exponent. -/
def f32Den (x : Dword) : Nat := 2 ^ (150 - f32Scale x)

/-- The numerator of the magnitude that is converted: 0 for a denormal under DAZ. -/
def cvttNum (x : Dword) (daz : Bool) : Nat := if daz = true ∧ f32Exp x = 0 then 0 else f32Num x

theorem f32Den_pos (x : Dword) : 0 < f32Den x := Nat.two_pow_pos _

theorem two_zpow_sub (a b : Nat) : (2 : ℚ) ^ ((a : ℤ) - b) = 2 ^ (a - b) / 2 ^ (b - a) := by
  rw [eq_div_iff (by positivity), ← zpow_natCast, ← zpow_natCast, ← zpow_add₀ two_ne_zero]
  congr 1
  omega

/-- The value of a pattern is its signed quotient. -/
theorem f32Value_eq (x : Dword) : f32Value x = applySign (f32Sign x) ((f32Num x : ℚ) / f32Den x) := by
  have hmag : (if f32Exp x = 0 then (f32Frac x : ℚ) * 2 ^ (-149 : ℤ)
      else ((2 : ℚ) ^ 23 + f32Frac x) * 2 ^ ((f32Exp x : ℤ) - 150)) = (f32Num x : ℚ) / f32Den x :=
    calc
      _ = (f32Sig x : ℚ) * 2 ^ ((f32Scale x : ℤ) - (150 : Nat)) := by
        rw [f32Sig, f32Scale]
        split_ifs with h0
        · rfl
        · push_cast
          rfl
      _ = (f32Num x : ℚ) / f32Den x := by
        rw [two_zpow_sub, f32Num, f32Den]
        push_cast
        ring
  rw [f32Value, hmag, applySign]
  split_ifs
  · exact neg_one_mul _
  · exact one_mul _

theorem cvttValue_eq (x : Dword) (daz : Bool) :
    cvttValue x daz = applySign (f32Sign x) ((cvttNum x daz : ℚ) / f32Den x) := by
  rw [cvttValue, cvttNum]
  split_ifs
  · rw [Nat.cast_zero, zero_div]
    cases f32Sign x with
    | false => rfl
    | true => exact neg_zero.symm
  · exact f32Value_eq x

/-! ## `cvtt` converts the signed quotient -/

/-- A denormal is below 1, and exact only as 0. -/
theorem convertsQuotient_of_denormal {x : Dword} (h : f32Exp x = 0) (daz : Bool) :
    ConvertsQuotient (cvtt x daz) (f32Sign x) (cvttNum x daz) (f32Den x) := by
  have hnum : cvttNum x daz = if daz then 0 else f32Frac x := by simp [cvttNum, f32Num, f32Sig, f32Scale, h]
  have hden : f32Den x = 2 ^ 149 := by simp only [f32Den, f32Scale, h, if_true]
  have hlt : cvttNum x daz < f32Den x := by
    have hfrac := f32Frac_lt x
    rw [hnum, hden]
    split <;> omega
  refine convertsQuotient_of_lt (by rw [Nat.div_eq_of_lt hlt]; decide) ?_
  rw [cvtt_of_denormal h, Nat.div_eq_of_lt hlt, Nat.mod_eq_of_lt hlt, hnum]
  cases daz <;> cases f32Sign x <;> simp [signedResult]

/-- From exponent 190 on the magnitude is at least 2^63, and only -2^63 fits. -/
theorem fits_of_large (neg : Bool) {e : Nat} (f : Nat) (he : 190 ≤ e) :
    Fits neg ((2 ^ 23 + f) * 2 ^ (e - 150)) ↔ (neg && e == 190 && f == 0) = true := by
  simp only [Fits, Bool.and_eq_true, beq_iff_eq]
  rcases he.eq_or_lt with rfl | hlarge
  · constructor
    · rintro (hlt | ⟨hneg, hmag⟩)
      · omega
      · exact ⟨⟨hneg, rfl⟩, by omega⟩
    · rintro ⟨⟨hneg, -⟩, rfl⟩
      exact .inr ⟨hneg, rfl⟩
  · have hwide : 2 ^ 23 * 2 ^ 41 ≤ (2 ^ 23 + f) * 2 ^ (e - 150) :=
      Nat.mul_le_mul (by omega) (Nat.pow_le_pow_right (by decide) (by omega))
    omega

/-- A normal number, by the ranges of its exponent. -/
theorem convertsQuotient_of_normal (neg : Bool) (e : Nat) {f : Nat} (hf : f < 2 ^ 23) :
    ConvertsQuotient (cvtNormal neg e f) neg ((2 ^ 23 + f) * 2 ^ (e - 150)) (2 ^ (150 - e)) := by
  rcases lt_or_ge e 150 with h150 | h150
  · have hscale : e - 150 = 0 := by omega
    rw [hscale, pow_zero, mul_one]
    refine convertsQuotient_of_lt ((Nat.div_le_self _ _).trans_lt (by omega)) ?_
    rcases lt_or_ge e 127 with h127 | h127
    · have hlt : 2 ^ 23 + f < 2 ^ (150 - e) :=
        calc 2 ^ 23 + f < 2 ^ 24 := by omega
          _ ≤ 2 ^ (150 - e) := Nat.pow_le_pow_right (by decide) (by omega)
      rw [cvtNormal_below_one neg f h127, Nat.div_eq_of_lt hlt, Nat.mod_eq_of_lt hlt]
      cases neg <;> simp [signedResult]
    · exact cvtNormal_fraction neg f h127 h150
  · have hden : 150 - e = 0 := by omega
    rw [hden, pow_zero]
    rcases lt_or_ge e 190 with h190 | h190
    · have hlt : (2 ^ 23 + f) * 2 ^ (e - 150) < 2 ^ 63 :=
        calc (2 ^ 23 + f) * 2 ^ (e - 150) < 2 ^ 24 * 2 ^ (e - 150) := Nat.mul_lt_mul_of_pos_right (by omega) (by positivity)
          _ ≤ 2 ^ 24 * 2 ^ 39 := Nat.mul_le_mul_left _ (Nat.pow_le_pow_right (by decide) (by omega))
      refine convertsQuotient_of_lt (by rwa [Nat.div_one]) ?_
      rw [cvtNormal_integer neg f h150 h190, Nat.div_one, Nat.mod_one]
      rfl
    · rw [ConvertsQuotient, Nat.div_one, fits_of_large neg f h190, cvtNormal_large neg f h190]
      refine ⟨fun h => ?_, fun h => if_neg h⟩
      rw [if_pos h]
      simp only [Bool.and_eq_true, beq_iff_eq] at h
      obtain ⟨⟨rfl, rfl⟩, rfl⟩ := h
      rfl

theorem cvtt_convertsQuotient {x : Dword} (h : f32Exp x ≠ 255) (daz : Bool) :
    ConvertsQuotient (cvtt x daz) (f32Sign x) (cvttNum x daz) (f32Den x) := by
  by_cases h0 : f32Exp x = 0
  · exact convertsQuotient_of_denormal h0 daz
  · have hnum : cvttNum x daz = (2 ^ 23 + f32Frac x) * 2 ^ (f32Exp x - 150) := by
      simp [cvttNum, f32Num, f32Sig, f32Scale, h0]
    rw [cvtt_of_normal h0 h, hnum, f32Den, f32Scale, if_neg h0]
    exact convertsQuotient_of_normal _ _ (f32Frac_lt x)

/-! ## The statements -/

/-- A conversion that is valid is that of a finite pattern, and truncates its quotient. -/
theorem cvtt_r_of_valid {x : Dword} {daz : Bool} (h : (cvtt x daz).ie = false) :
    (cvtt x daz).r = signedResult (f32Sign x) (cvttNum x daz / f32Den x) := by
  by_cases hspecial : f32Exp x = 255
  · rw [cvtt_of_special hspecial] at h
    cases h
  · obtain ⟨hfits, hwide⟩ := cvtt_convertsQuotient hspecial daz
    by_cases hf : Fits (f32Sign x) (cvttNum x daz / f32Den x)
    · rw [hfits hf]
    · rw [hwide hf] at h
      cases h

/-- A conversion that is not valid gives the invalid response. -/
theorem cvtt_of_invalid {x : Dword} {daz : Bool} (h : (cvtt x daz).ie = true) : cvtt x daz = cvtInvalid := by
  by_cases hspecial : f32Exp x = 255
  · exact cvtt_of_special hspecial daz
  · obtain ⟨hfits, hwide⟩ := cvtt_convertsQuotient hspecial daz
    refine hwide fun hf => ?_
    rw [hfits hf] at h
    cases h

/-- Settles O16: `cvtt` divides with remainder as truncation does, and the quotient fits where the truncation is in range. -/
theorem cvttTruncatesTheRationalValue : Obligations.CvttTruncatesTheRationalValue := by
  intro x daz
  refine ⟨fun hspecial => cvtt_of_special hspecial daz, fun hfinite => ?_⟩
  obtain ⟨hfits, hwide⟩ := cvtt_convertsQuotient hfinite daz
  rw [cvttValue_eq, truncate_applySign_div_ne_iff _ _ (f32Den_pos x), truncate_applySign_div, ← fits_iff]
  refine ⟨fun hf => ?_, hwide⟩
  rw [hfits hf]
  exact ⟨signedResult_toInt hf, rfl, bne_iff_ne⟩

/-- Settles O17: the invalid response signals nothing else, and from exponent 150 to 189 the value is an integer in range. -/
theorem cvttSignalsExcludeEachOther : Obligations.CvttSignalsExcludeEachOther := by
  intro x daz
  constructor
  · intro hinvalid
    rw [cvtt_of_invalid hinvalid]
    exact ⟨rfl, rfl⟩
  · intro hlow hhigh
    rw [cvtt_of_normal (by omega) (by omega), cvtNormal_integer _ _ hlow (by omega)]
    exact ⟨rfl, rfl⟩

theorem f32Sign_flip (x : Dword) : f32Sign (x ^^^ 0x80000000#32) = !f32Sign x := by simp [f32Sign]

theorem f32Exp_flip (x : Dword) : f32Exp (x ^^^ 0x80000000#32) = f32Exp x := by simp [f32Exp, BitVec.extractLsb'_xor]

theorem f32Frac_flip (x : Dword) : f32Frac (x ^^^ 0x80000000#32) = f32Frac x := by simp [f32Frac, BitVec.extractLsb'_xor]

/-- Settles O18: the flipped pattern has the same quotient and the other sign. -/
theorem cvttOfNegatedIsNegated : Obligations.CvttOfNegatedIsNegated := by
  intro x daz hvalid hvalid'
  have hnum : cvttNum (x ^^^ 0x80000000#32) daz = cvttNum x daz := by
    simp only [cvttNum, f32Num, f32Sig, f32Scale, f32Exp_flip, f32Frac_flip]
  have hden : f32Den (x ^^^ 0x80000000#32) = f32Den x := by simp only [f32Den, f32Scale, f32Exp_flip]
  rw [cvtt_r_of_valid hvalid', cvtt_r_of_valid hvalid, hnum, hden, f32Sign_flip, signedResult_not]

/-- Settles O19: DAZ is looked at for exponent 0 alone, and there only by the precision signal. -/
theorem dazOnlyDropsPrecisionOfDenormals : Obligations.DazOnlyDropsPrecisionOfDenormals := by
  intro x
  by_cases h0 : f32Exp x = 0
  · rw [cvtt_of_denormal h0, cvtt_of_denormal h0]
    simp [h0]
  · have hsame : cvtt x true = cvtt x false := by
      by_cases hspecial : f32Exp x = 255
      · rw [cvtt_of_special hspecial, cvtt_of_special hspecial]
      · rw [cvtt_of_normal h0 hspecial, cvtt_of_normal h0 hspecial]
    rw [hsame]
    exact ⟨rfl, rfl, fun h => absurd h.1 h0, fun _ => rfl⟩

end Sys2Proof.Machine
end

section
/-! What a completed instruction writes, and where every form completes (spec 40_vcvttps2qq R95 to R112). -/

namespace Sys2Proof.Machine

/-! ## Source elements that agree on active lanes (40_vcvttps2qq R96, R97) -/

/-- The elements of the active lanes are those of `src`: all that an effect says of the source. -/
def ActiveElements (i : Instr) (s : State) (elems : List Dword) (src : Nat → Dword) : Prop :=
  ∀ j < lanesOf (instrVLen i), laneActive s (instrMask i) j = true → elems.getD j 0 = src j

section Elements

variable {i : Instr} {s : State} {elems : List Dword} {src : Nat → Dword} (h : ActiveElements i s elems src)

include h

/-- What the active lanes signal hangs on their elements alone. -/
theorem signals_iff (f : Cvt → Bool) : Signals f i s (fun j => elems.getD j 0) ↔ Signals f i s src :=
  exists_congr fun j => and_congr_right fun hj => and_congr_right fun hactive => by rw [← h j hj hactive]

theorem instrLanes_any_ie : (instrLanes i s elems).any Cvt.ie = true ↔ Signals Cvt.ie i s src :=
  (laneResults_ie ..).trans (signals_iff h Cvt.ie)

theorem instrLanes_any_pe : (instrLanes i s elems).any Cvt.pe = true ↔ Signals Cvt.pe i s src :=
  (laneResults_pe ..).trans (signals_iff h Cvt.pe)

/-- An unmasked exception is signalled where the form is not the SAE form and some signal is not masked. -/
theorem unmaskedSignal_iff : unmaskedSignal i s elems = true ↔ instrSae i = false ∧ ¬AllMasked i s src := by
  rw [AllMasked, ← instrLanes_any_ie h, ← instrLanes_any_pe h, ← unmasked_iff, ← Bool.not_eq_true']
  exact Bool.and_eq_true_iff

theorem lanesWritten_committed : LanesWritten i s src (committed i s elems) := by
  intro j hj
  have hnew : readVec (committed i s elems) (instrDst i) = packQwords ((instrLanes i s elems).map Cvt.r) :=
    readVec_writeVec_same ..
  rw [hnew, instrLanes, laneResults_elem _ _ _ _ _ hj]
  refine if_ctx_congr Iff.rfl (fun hlane => ?_) fun _ => rfl
  cases hactive : laneActive s (instrMask i) j with
  | true => rw [h j hlane hactive]; rfl
  | false => rfl

theorem flagsWritten_committed : FlagsWritten i s src (committed i s elems) := by
  rw [FlagsWritten, ← instrLanes_any_ie h, ← instrLanes_any_pe h, committed_mxcsr]
  cases instrSae i with
  | true => simp
  | false =>
    refine ⟨?_, ?_, fun b h0 h5 => orFlags_other _ _ _ h0 h5⟩
    · simp [mxIE_orFlags, instrLanes]
    · simp [mxPE_orFlags, instrLanes]

/-- The state that a completed instruction leaves has the whole effect. -/
theorem completed_committed : Completed i s src (committed i s elems) :=
  ⟨lanesWritten_committed h, flagsWritten_committed h, committed_pc i s elems,
    fun _ hr => readVec_committed_other i s elems hr, committed_frame i s elems⟩

/-- An enabled form whose source is read, and that signals no unmasked exception, completes with the whole effect. -/
theorem exec_completes (henabled : Enabled (instrVLen i) s) (hsource : sourceOf i s = .ok elems)
    (hmasked : instrSae i = false → AllMasked i s src) :
    exec i s = .next (committed i s elems) ∧ Completed i s src (committed i s elems) := by
  have hquiet : unmaskedSignal i s elems = false := by
    rw [Bool.eq_false_iff, ne_eq, unmaskedSignal_iff h]
    exact fun ⟨hsae, hunmasked⟩ => hunmasked (hmasked hsae)
  exact ⟨exec_eq_next_iff.2 ⟨henabled, elems, hsource, hquiet, rfl⟩, completed_committed h⟩

end Elements

/-! ## The operand of a memory form (20_memory R45, R46, R49) -/

/-- Alignment checking that lets a read pass stops none of its accesses. -/
theorem alignmentStop_of_passes {s : State} {addr : Qword} {n : Nat} {wanted : Nat → Bool}
    (h : AlignmentPasses s addr n wanted) :
    (∀ k < n, wanted k = false) ∨ alignmentStop s addr n = none := by
  rcases h with hoff | haligned | hnone | ⟨hraise, hnarrow, hwide⟩
  · exact .inr (by simp [alignmentStop, hoff])
  · exact .inr (by simp [alignmentStop, haligned])
  · exact .inl hnone
  · exact .inr (by simp [alignmentStop, hraise, hnarrow, Nat.not_le.2 hwide])

/-- A readable operand that passes alignment checking is read, and its accessed bytes are the ones named. -/
theorem readOperand_of_passes {s : State} (ss : Bool) {addr : Qword} {n : Nat} {wanted : Nat → Bool} {b : Nat → Byte}
    (hread : Readable s addr n wanted b) (halign : AlignmentPasses s addr n wanted) :
    ∃ bs, readOperand s ss addr n wanted = .ok bs ∧ ∀ k < n, wanted k = true → bs.getD k 0 = b k :=
  ⟨_, readOperand_of_readable (fun k hk hw => ⟨b k, hread k hk hw⟩) (alignmentStop_of_passes halign),
    fun k hk hw => operandReads_getD hk hw (hread k hk hw)⟩

/-- The doubleword of four bytes that a read gave. -/
theorem dwordAt_eq_dwordOf {bs : List Byte} {b : Nat → Byte} {j : Nat} (h : ∀ k < 4, bs.getD (4 * j + k) 0 = b (4 * j + k)) :
    dwordAt bs j = dwordOf b j := by
  rw [dwordAt, dwordOf, h 3 (by decide), h 2 (by decide), h 1 (by decide)]
  exact congrArg _ (h 0 (by decide))

/-- A full-memory source: each active lane has the doubleword of its four bytes. -/
theorem memSource_of_passes {v : VLen} {s : State} {p : Pfx} {m : Masking} {a : MemOperand} {b : Nat → Byte}
    (hread : Readable s (operandAddress s p (fullBytes v) a) (fullBytes v) (fullWanted s m) b)
    (halign : AlignmentPasses s (operandAddress s p (fullBytes v) a) (fullBytes v) (fullWanted s m)) :
    ∃ elems, memSource v s p m a = .ok elems ∧
      ∀ j < lanesOf v, laneActive s m j = true → elems.getD j 0 = dwordOf b j := by
  obtain ⟨bs, hbs, hbytes⟩ := readOperand_of_passes (usesStackSegment s p a) hread halign
  refine ⟨_, memSource_eq_ok_iff.2 ⟨bs, hbs, rfl⟩, fun j hj hactive => ?_⟩
  rw [map_range_getD hj]
  refine dwordAt_eq_dwordOf fun k hk => ?_
  obtain ⟨hin, hwanted⟩ := fullWanted_of_active hj hk hactive
  exact hbytes _ hin hwanted

/-- A broadcast source: each active lane has the one doubleword. -/
theorem bcstSource_of_passes {v : VLen} {s : State} {p : Pfx} {m : Masking} {a : MemOperand} {b : Nat → Byte}
    (hread : Readable s (operandAddress s p 4 a) 4 (bcstWanted v s m) b)
    (halign : AlignmentPasses s (operandAddress s p 4 a) 4 (bcstWanted v s m)) :
    ∃ elems, bcstSource v s p m a = .ok elems ∧
      ∀ j < lanesOf v, laneActive s m j = true → elems.getD j 0 = dwordOf b 0 := by
  obtain ⟨bs, hbs, hbytes⟩ := readOperand_of_passes (usesStackSegment s p a) hread halign
  refine ⟨List.replicate (lanesOf v) (dwordAt bs 0), by rw [bcstSource, bcstBytes, hbs], fun j hj hactive => ?_⟩
  have hwanted (k : Nat) : bcstWanted v s m k = true := bcstWanted_iff.2 (.inr (someActive_of_laneActive hj hactive))
  have helem : dwordAt bs 0 = dwordOf b 0 := dwordAt_eq_dwordOf fun k hk => by
    simpa using hbytes k hk (hwanted k)
  exact (List.getD_replicate _ hj).trans helem

/-! ## Where the forms complete -/

/-- Settles O20: a register source is always read. -/
theorem registerFormsComplete : Obligations.RegisterFormsComplete := by
  intro v p m dst src s henabled hmasked
  refine ⟨_, exec_completes (fun j hj _ => ?_) (by simpa using henabled) (sourceOf_regForm ..) fun _ => hmasked⟩
  exact regSource_getD (by simpa using hj)

/-- Settles O21: the operand is read, and active lanes see only accessed bytes. -/
theorem memoryFormsComplete : Obligations.MemoryFormsComplete := by
  intro v p m dst a s b henabled hread halign hmasked
  obtain ⟨elems, hsource, helems⟩ := memSource_of_passes hread halign
  refine ⟨_, exec_completes ?_ (by simpa using henabled) ((sourceOf_memForm ..).trans hsource) fun _ => hmasked⟩
  simpa [ActiveElements] using helems

/-- Settles O22: the element is read where some lane is active, and is every lane's. -/
theorem broadcastFormsComplete : Obligations.BroadcastFormsComplete := by
  intro v p m dst a s b henabled hread halign hmasked
  obtain ⟨elems, hsource, helems⟩ := bcstSource_of_passes hread halign
  refine ⟨_, exec_completes ?_ (by simpa using henabled) ((sourceOf_bcstForm ..).trans hsource) fun _ => hmasked⟩
  simpa [ActiveElements] using helems

/-- Settles O23: the SAE form looks at no mask and writes no flag. -/
theorem saeFormCompletes : Obligations.SaeFormCompletes := by
  intro p m dst src s henabled
  obtain ⟨hexec, heffect⟩ := exec_completes (i := .sae512 p m dst src) (src := elem32 (readVec s src))
    (fun j hj _ => regSource_getD hj) henabled rfl nofun
  exact ⟨_, hexec, heffect, committed_mxcsr ..⟩

/-! ## What every completed form has done -/

/-- Settles O24: what is committed was made of the source that was read. -/
theorem newDestinationIsLaneByLane : Obligations.NewDestinationIsLaneByLane := by
  intro i s t h
  obtain ⟨-, elems, hsource, -, rfl⟩ := exec_eq_next_iff.1 h
  have hsame : ActiveElements i s elems fun j => elems.getD j 0 := fun _ _ _ => rfl
  exact ⟨elems, hsource, lanesWritten_committed hsame, flagsWritten_committed hsame⟩

/-- Settles O25: an instruction commits its destination, flags and pc alone. -/
theorem instructionWritesNothingElse : Obligations.InstructionWritesNothingElse := by
  intro i s t h
  obtain ⟨-, elems, -, -, rfl⟩ := exec_eq_next_iff.1 h
  obtain ⟨ie, pe, hflags⟩ := exists_mxcsr_committed i s elems
  refine ⟨⟨rfl, byteAt_congr rfl rfl⟩, rfl, rfl, rfl, fun r hr => readVec_committed_other i s elems hr, ?_, ?_⟩
  · intro b h0 h5
    rw [hflags, orFlags_other _ _ _ h0 h5]
  · exact ⟨rfl, rfl, rfl, rfl, rfl, rfl, rfl, rfl, rfl, rfl, rfl, rfl⟩

/-- Settles O26: IM and PM reach no lane, so both forms commit the same register. -/
theorem saeGivesTheRegisterOfMaskedReg512 : Obligations.SaeGivesTheRegisterOfMaskedReg512 := by
  intro p m dst src s t u hsae hreg
  have hdaz : mxDAZ (s.mxcsr ||| 0x1080#32) = mxDAZ s.mxcsr := by simp [mxDAZ]
  generalize s.mxcsr ||| 0x1080#32 = x at hreg hdaz
  obtain ⟨-, _, hsource, -, rfl⟩ := exec_eq_next_iff.1 hsae
  obtain ⟨-, _, hsource', -, rfl⟩ := exec_eq_next_iff.1 hreg
  cases hsource
  cases hsource'
  have hlanes : instrLanes (.sae512 p m dst src) s (regSource .v512 s src) =
      instrLanes (.reg512 p m dst src) (writeMxcsr s x) (regSource .v512 s src) :=
    (laneResults_congr (s := s) (s' := writeMxcsr s x) (fun _ _ => rfl) (fun _ _ _ => rfl) (fun _ _ _ => rfl) hdaz).symm
  have hlength : instrLength (.sae512 p m dst src) = instrLength (.reg512 p m dst src) := rfl
  refine ⟨?_, ?_, committed_mxcsr ..⟩
  · rw [committed_eq_instrLanes, hlanes]
    rfl
  · rw [committed_pc, committed_pc, hlength, writeMxcsr_pc]

/-- Settles O32: the enables, the source and the lanes do not look at the draw number. -/
theorem completedResultUsesNoFreeValue : Obligations.CompletedResultUsesNoFreeValue := by
  intro i s t n h
  obtain ⟨src, src', hlanes, rfl, hexec⟩ := exec_next_of_sameLanes (s' := { s with draws := n }) h id
    (fun src hsource => ⟨src, sourceOf_congr (s := s) rfl rfl rfl rfl rfl ⟨rfl, rfl, rfl, rfl⟩ rfl (fun _ _ => rfl)
      (fun _ _ => alignmentStop_none_congr rfl rfl) hsource, rfl⟩)
    fun _ => ⟨rfl, rfl⟩
  rw [hexec, committed_eq_instrLanes, committed_eq_instrLanes, hlanes]
  rfl

/-! ## Signals that are not masked, and the faults of a register form (40_vcvttps2qq R98, R120) -/

/-- The free flags of a SIMD floating-point exception are OR-ed in, and one draw is taken. -/
theorem drawnFlags_eq (s : State) :
    ∃ ie pe, drawnFlags s = { s with mxcsr := orFlags s.mxcsr ie pe, draws := s.draws + 1 } := ⟨_, _, rfl⟩

/-- Settles O33: EXEC ends in the SIMD exception, whose flags are OR-ed into MXCSR. -/
theorem unmaskedSignalRaisesSimdException : Obligations.UnmaskedSignalRaisesSimdException := by
  intro i s elems hsae henabled hsource hunmasked
  have hsignal : unmaskedSignal i s elems = true := (unmaskedSignal_iff fun _ _ _ => rfl).2 ⟨hsae, hunmasked⟩
  have hexec : exec i s = raiseSimd s := by rw [exec_of_source henabled hsource, if_pos hsignal]
  obtain ⟨ie, pe, hdrawn⟩ := drawnFlags_eq s
  refine ⟨orFlags s.mxcsr ie pe, fun b h0 h5 => orFlags_other _ _ _ h0 h5, fun b hb => orFlags_sticky _ _ _ hb, ?_, ?_⟩
  · intro hxm
    rw [hexec, raiseSimd, if_pos hxm, hdrawn, raise]
  · intro hud
    rw [hexec, raiseSimd, hud, if_neg Bool.false_ne_true, hdrawn, raise]

/-- A form whose source is always read faults in the enables, or, but for the SAE form, with the SIMD exception. -/
theorem exec_eq_fault_of_source {i : Instr} {s : State} {f : Fault} {elems : List Dword} (hsource : sourceOf i s = .ok elems)
    (h : exec i s = .fault f) :
    ((vectorOf f = 6 ∨ vectorOf f = 7) ∧ ∀ a, f ≠ .ud .simdFp a) ∨
      instrSae i = false ∧ (vectorOf f = 6 ∨ vectorOf f = 19) := by
  rcases exec_eq_fault h with hcheck | herror | ⟨hsae, hsimd⟩
  · exact .inl (checkEnabled_eq_fault hcheck).2
  · rw [hsource] at herror
    cases herror
  · obtain ⟨-, rfl | rfl⟩ := raiseSimd_eq_fault hsimd
    · exact .inr ⟨hsae, .inr rfl⟩
    · exact .inr ⟨hsae, .inl rfl⟩

/-- Settles O41: no operand is read, and the SAE form raises no SIMD exception. -/
theorem registerFormsRaiseNoMemoryFault : Obligations.RegisterFormsRaiseNoMemoryFault := by
  intro v p m dst src s f
  constructor
  · intro h
    rcases exec_eq_fault_of_source (sourceOf_regForm ..) h with ⟨hv, -⟩ | ⟨-, hv⟩ <;> omega
  · intro h
    rcases exec_eq_fault_of_source (i := .sae512 p m dst src) rfl h with hfault | ⟨hsae, -⟩
    · exact hfault
    · cases hsae

/-! ## pc over a step (40_vcvttps2qq R102, 10_state R26) -/

/-- Settles O47: a step runs only an instruction that ends below 2^64 (log 12), so adding its length does not wrap. -/
theorem stepAdvancesPcByTheLength : Obligations.StepAdvancesPcByTheLength := by
  intro s t h
  obtain ⟨i, src, hrun, -, rfl⟩ := step_eq_next_committed h
  obtain ⟨-, ⟨rest, hdecode⟩, hbelow⟩ := fetchDecode_run hrun
  refine ⟨i, rest, hdecode, ?_, instrLength_bounds i⟩
  rw [committed_pc, BitVec.toNat_add, BitVec.toNat_ofNat, Nat.add_mod_mod, Nat.mod_eq_of_lt hbelow]

end Sys2Proof.Machine
end

section
/-! The enables in their order, the faults of a memory operand, and what a fault records (spec 60_exceptions R121 to R134). -/

namespace Sys2Proof.Machine

/-! ## The privilege level (60_exceptions R134) -/

/-- Settles O31: the CPL is read by alignment checking alone, which is off at both levels. -/
theorem privilegeLevelCannotMatter : Obligations.PrivilegeLevelCannotMatter := by
  intro i s t c hoff hoff' h
  have hstop (addr : Qword) (n : Nat) :
      alignmentStop { s with cpl := c } addr n = none ∨ alignmentStop s addr n ≠ none :=
    alignmentStop_none_congr (hoff'.trans hoff.symm) rfl
  obtain ⟨src, src', hlanes, rfl, hexec⟩ := exec_next_of_sameLanes (s' := { s with cpl := c }) h id
    (fun src hsource =>
      ⟨src, sourceOf_congr (s := s) rfl rfl rfl rfl rfl ⟨rfl, rfl, rfl, rfl⟩ rfl (fun _ _ => rfl) hstop hsource, rfl⟩)
    fun _ => ⟨rfl, rfl⟩
  rw [hexec, committed_eq_instrLanes, committed_eq_instrLanes, hlanes]
  rfl

/-! ## The stack segment (60_exceptions R126, 30_encoding R81) -/

/-- The base register selects the stack segment where it is RSP or RBP. -/
theorem stackBase_iff (a : MemOperand) :
    stackBase a = true ↔ ∃ r : Gpr, (r = 4 ∨ r = 5) ∧ ((∃ d, a = .base r d) ∨ ∃ i d, a = .sib r i d) := by
  cases a with
  | base b d => simp [stackBase]
  | rip d => simp [stackBase]
  | sib b i d => simp [stackBase]
  | sibNoBase i d => simp [stackBase]

/-- Where an override counts, 0x36 alone puts the operand in the stack segment. -/
theorem usesStackSegment_of_counted {s : State} (h : s.params.segOverrideIgnored = false) (p : Pfx) (a : MemOperand) :
    usesStackSegment s p a = true ↔ p.seg = some .ss ∨ (p.seg = none ∧ stackBase a = true) := by
  cases hseg : p.seg with
  | none => simp [usesStackSegment, hseg]
  | some g => simp [usesStackSegment, hseg, h]

/-- Where an override without a base is ignored, FS and GS alone take the operand out of the stack segment. -/
theorem usesStackSegment_of_notCounted {s : State} (h : s.params.segOverrideIgnored = true) (p : Pfx) (a : MemOperand) :
    usesStackSegment s p a = true ↔ (p.seg ≠ some .fs ∧ p.seg ≠ some .gs) ∧ stackBase a = true := by
  cases hseg : p.seg with
  | none => simp [usesStackSegment, hseg]
  | some g => cases g <;> simp [usesStackSegment, hseg, h, segHasBase]

/-- Settles O35: under each reading the override decides first, and then the base register. -/
theorem stackSegmentByBaseOrPrefix : Obligations.StackSegmentByBaseOrPrefix := by
  intro s p a
  rw [← stackBase_iff]
  exact ⟨fun h => usesStackSegment_of_counted h p a, fun h => usesStackSegment_of_notCounted h p a⟩

/-! ## The faults of a memory operand (60_exceptions R126, R127, R129) -/

section MemoryForms

variable {v : VLen} {s : State} {p : Pfx} {m : Masking} {a : MemOperand} {o : Host.Outcome State Fault Refusal}

/-- An enabled full-memory form answers what the read of its operand answers. -/
theorem exec_memForm_of_error (henabled : Enabled v s) (dst : VReg)
    (hread : readOperand s (usesStackSegment s p a) (operandAddress s p (fullBytes v) a) (fullBytes v) (fullWanted s m) =
      .error o) : exec (memForm v p m dst a) s = o :=
  exec_of_error (by simpa using henabled) ((sourceOf_memForm ..).trans (memSource_of_error hread))

/-- So does a broadcast form. -/
theorem exec_bcstForm_of_error (henabled : Enabled v s) (dst : VReg)
    (hread : readOperand s (usesStackSegment s p a) (operandAddress s p bcstBytes a) bcstBytes (bcstWanted v s m) =
      .error o) : exec (bcstForm v p m dst a) s = o :=
  exec_of_error (by simpa using henabled) ((sourceOf_bcstForm ..).trans (bcstSource_of_error hread))

end MemoryForms

section OperandRead

variable {s : State} {ss : Bool} {addr : Qword} {n : Nat} {wanted : Nat → Bool} {k : Nat}

/-- One accessed byte at a non-canonical address decides the read, whatever the others are. -/
theorem readOperand_of_nonCanonical (hk : k < n) (hwanted : wanted k = true)
    (hbyte : readByte s .read (addr + BitVec.ofNat 64 k) = .error .nonCanonical) :
    readOperand s ss addr n wanted = .error (.fault (if ss then .ss s else .gp s)) := by
  have hsome : someNonCanonical (operandReads s addr n wanted) = true :=
    (someNonCanonical_iff _).2 (mem_operandReads.2 ⟨k, hk, hwanted, hbyte⟩)
  simp only [readOperand, hsome, if_true, raise]
  cases ss <;> rfl

/-- Readable bytes are refused by no access. -/
theorem error_notMem_operandReads {b : Nat → Byte} (hread : Readable s addr n wanted b) (d : Deny) :
    Except.error d ∉ operandReads s addr n wanted := by
  rw [mem_operandReads]
  rintro ⟨i, hi, hwanted, hdeny⟩
  rw [hread i hi hwanted] at hdeny
  cases hdeny

/-- Alignment checking stops the read of a readable operand of which some byte is accessed. -/
theorem readOperand_of_alignmentStop {b : Nat → Byte} {o : Host.Outcome State Fault Refusal}
    (hread : Readable s addr n wanted b) (hk : k < n) (hwanted : wanted k = true)
    (hstop : alignmentStop s addr n = some o) : readOperand s ss addr n wanted = .error o := by
  have hcanon : someNonCanonical (operandReads s addr n wanted) = false := by
    rw [Bool.eq_false_iff, ne_eq, someNonCanonical_iff]
    exact error_notMem_operandReads hread _
  have hcodes : pageCodes (operandReads s addr n wanted) = [] :=
    (pageCodes_nil_iff _).2 fun c => error_notMem_operandReads hread _
  have haccess : (List.range n).filter wanted ≠ [] :=
    List.ne_nil_of_mem (List.mem_filter.2 ⟨List.mem_range.2 hk, hwanted⟩)
  simp [readOperand, hcanon, hcodes, haccess, hstop]

end OperandRead

/-- Settles O34: the operand read looks for non-canonical addresses first. -/
theorem nonCanonicalOperandRaisesSsOrGp : Obligations.NonCanonicalOperandRaisesSsOrGp := by
  intro v p m dst a s k henabled
  constructor
  · intro hk hwanted hbyte
    exact exec_memForm_of_error henabled dst (readOperand_of_nonCanonical hk (fullWanted_iff.2 hwanted) hbyte)
  · intro hk hwanted hbyte
    exact exec_bcstForm_of_error henabled dst
      (readOperand_of_nonCanonical (wanted := bcstWanted v s m) hk (bcstWanted_iff.2 hwanted) hbyte)

section Misaligned

variable {s : State} {addr : Qword} {n : Nat} (hcheck : alignmentChecking s = true) (hmisaligned : addr.toNat % n ≠ 0)

include hcheck hmisaligned

theorem alignmentStop_raises (hraise : s.params.reconstructed = true) (hsize : n ≤ 8 ∨ s.params.acWide = true) :
    alignmentStop s addr n = some (.fault (.ac s)) := by
  simp [alignmentStop, hcheck, hmisaligned, hraise, hsize, raise]

theorem alignmentStop_refuses (hrefuse : s.params.reconstructed = false) :
    alignmentStop s addr n = some (.refused .alignmentChecked) := by
  simp [alignmentStop, hcheck, hmisaligned, hrefuse]

end Misaligned

/-- Settles O37: a readable operand reaches the alignment check, which stops it. -/
theorem misalignedOperandUnderAlignmentChecking : Obligations.MisalignedOperandUnderAlignmentChecking := by
  intro v p m dst a s b k henabled hcheck
  constructor
  · intro hread hk hwanted hmisaligned
    have hexec {o} (hstop : alignmentStop s (operandAddress s p (fullBytes v) a) (fullBytes v) = some o) :
        exec (memForm v p m dst a) s = o :=
      exec_memForm_of_error henabled dst (readOperand_of_alignmentStop hread hk (fullWanted_iff.2 hwanted) hstop)
    refine ⟨fun hraise hsize => hexec (alignmentStop_raises hcheck hmisaligned hraise (hsize.imp_left ?_)),
      fun hrefuse => hexec (alignmentStop_refuses hcheck hmisaligned hrefuse)⟩
    rintro rfl
    decide
  · intro hread hwanted hmisaligned
    have haccess : bcstWanted v s m 0 = true := bcstWanted_iff.2 hwanted
    have hexec {o} (hstop : alignmentStop s (operandAddress s p bcstBytes a) bcstBytes = some o) :
        exec (bcstForm v p m dst a) s = o :=
      exec_bcstForm_of_error henabled dst
        (readOperand_of_alignmentStop (fun j hj _ => hread j hj rfl) (by decide) haccess hstop)
    exact ⟨fun hraise => hexec (alignmentStop_raises hcheck hmisaligned hraise (.inl (by decide))),
      fun hrefuse => hexec (alignmentStop_refuses hcheck hmisaligned hrefuse)⟩

/-! ## The enables, in their order (60_exceptions R121, R122, R129) -/

/-- A failed check of the enables is the answer, before any operand is read. -/
theorem exec_of_checkEnabled {i : Instr} {s : State} {o : Host.Outcome State Fault Refusal}
    (h : checkEnabled (instrVLen i) s = some o) : exec i s = o := by
  simp only [exec_eq_execForm, execForm, h]

theorem needsVl_iff (v : VLen) : needsVl v = true ↔ v ≠ .v512 := by
  cases v <;> decide

/-- The CPUID flags that the source names are looked at right after the mode. -/
theorem checkEnabled_of_missingCpuid {v : VLen} {s : State} (hmode : s.mode = .long64)
    (h : hasAvx512dq s = false ∨ (needsVl v = true ∧ hasAvx512vl s = false)) :
    checkEnabled v s = some (.fault (.ud .cpuid s)) := by
  cases hdq : hasAvx512dq s with
  | false => simp [checkEnabled, hmode, hdq, raise]
  | true =>
    obtain ⟨hneeds, hvl⟩ := h.resolve_left (by simp [hdq])
    simp [checkEnabled, hmode, hdq, hneeds, hvl, raise]

/-- Settles O38: a missing CPUID flag is found before any other premise. -/
theorem missingCpuidFlagRaisesUd : Obligations.MissingCpuidFlagRaisesUd := by
  intro i s hmode hmissing
  rw [← needsVl_iff] at hmissing
  exact exec_of_checkEnabled (checkEnabled_of_missingCpuid hmode hmissing)

section Premises

variable {v : VLen} {s : State} (hmode : s.mode = .long64) (hdq : hasAvx512dq s = true)
  (hvl : needsVl v = true → hasAvx512vl s = true)

include hmode hdq hvl

/-- With the CPUID flags of the source met, a missing AVX512F, OSXSAVE or XCR0 bit is the premise that fails, whatever CR0.TS is. -/
theorem checkEnabled_of_missingEnable (h : hasAvx512f s = false ∨ osxsave s = false ∨ xcr0Enabled s = false) :
    ∃ q ≠ Premise.taskSwitched, checkEnabled v s = some (premiseFails s q) := by
  have hflags : ¬(needsVl v = true ∧ hasAvx512vl s = false) := by simpa using hvl
  cases hf : hasAvx512f s with
  | false => exact ⟨.avx512f, by decide, by simp [checkEnabled, hmode, hdq, hflags, hf]⟩
  | true =>
    cases hos : osxsave s with
    | false => exact ⟨.osxsave, by decide, by simp [checkEnabled, hmode, hdq, hflags, hf, hos]⟩
    | true =>
      have hxcr0 : xcr0Enabled s = false := by simpa [hf, hos] using h
      exact ⟨.xcr0, by decide, by simp [checkEnabled, hmode, hdq, hflags, hf, hos, hxcr0]⟩

/-- With every other enable met, CR0.TS = 1 is the premise that fails. -/
theorem checkEnabled_of_taskSwitched (hf : hasAvx512f s = true) (hos : osxsave s = true) (hxcr0 : xcr0Enabled s = true)
    (hts : taskSwitched s = true) : checkEnabled v s = some (premiseFails s .taskSwitched) := by
  have hflags : ¬(needsVl v = true ∧ hasAvx512vl s = false) := by simpa using hvl
  simp [checkEnabled, hmode, hdq, hflags, hf, hos, hxcr0, hts]

end Premises

theorem premiseFails_of_refuse {s : State} (h : s.params.reconstructed = false) (q : Premise) :
    premiseFails s q = .refused (.launchPremise q) := by
  simp [premiseFails, h]

theorem premiseFails_enable {s : State} (h : s.params.reconstructed = true) {q : Premise} (hq : q ≠ .taskSwitched) :
    premiseFails s q = .fault (.ud .enable s) := by
  cases q with
  | avx512f | osxsave | xcr0 => simp [premiseFails, h, raise]
  | taskSwitched => exact absurd rfl hq

theorem premiseFails_taskSwitched {s : State} (h : s.params.reconstructed = true) :
    premiseFails s .taskSwitched = .fault (.nm s) := by
  simp [premiseFails, h, raise]

/-- Settles O39: the first premise that fails is the answer, and CR0.TS comes last. -/
theorem failedEnableIsUdThenNmOrRefused : Obligations.FailedEnableIsUdThenNmOrRefused := by
  intro i s hmode hdq hvl
  rw [← needsVl_iff] at hvl
  constructor
  · intro hmissing
    obtain ⟨q, hq, hcheck⟩ := checkEnabled_of_missingEnable hmode hdq hvl hmissing
    rw [exec_of_checkEnabled hcheck]
    exact ⟨fun hraise => premiseFails_enable hraise hq, fun hrefuse => ⟨q, premiseFails_of_refuse hrefuse q⟩⟩
  · intro hf hos hxcr0 hts
    rw [exec_of_checkEnabled (checkEnabled_of_taskSwitched hmode hdq hvl hf hos hxcr0 hts)]
    exact ⟨premiseFails_taskSwitched, fun hrefuse => premiseFails_of_refuse hrefuse _⟩

/-! ## What a fault records (60_exceptions R130, 40_vcvttps2qq R98) -/

/-- A fault of a form is the SIMD floating-point exception, or it records the state as it was but for a draw. -/
theorem exec_fault_simd_or_unchanged {i : Instr} {s : State} {f : Fault} (h : exec i s = .fault f) :
    raiseSimd s = .fault f ∨ stateAfter f = s ∨ stateAfter f = drawn s := by
  rcases exec_eq_fault h with hcheck | hsource | ⟨-, hsimd⟩
  · exact .inr (.inl (checkEnabled_eq_fault hcheck).1)
  · rcases sourceOf_error hsource with hrefused | ⟨g, hg, hstate, -⟩
    · cases hrefused
    · cases hg
      exact .inr hstate
  · exact .inl hsimd

/-- So is a fault of a step: the fetch raises no SIMD floating-point exception. -/
theorem step_fault_simd_or_unchanged {s : State} {f : Fault} (h : step s = .fault f) :
    raiseSimd s = .fault f ∨ stateAfter f = s ∨ stateAfter f = drawn s := by
  cases hfetch : fetchDecode s with
  | run i => exact exec_fault_simd_or_unchanged (by rwa [step, hfetch] at h)
  | stop o =>
    rw [step_of_stop hfetch] at h
    subst h
    rcases fetchDecode_stop hfetch with ⟨r, hr⟩ | ⟨g, hg, hstate, -⟩
    · cases hr
    · cases hg
      exact .inr hstate

/-- Settles O42: a SIMD exception ORs flags into MXCSR and takes a draw; every other fault takes a draw at most. -/
theorem everyFaultIsPrecise : Obligations.EveryFaultIsPrecise := by
  intro s f h
  rcases step_fault_simd_or_unchanged h with hsimd | hs | hs
  · obtain ⟨hs, hf⟩ := raiseSimd_eq_fault hsimd
    obtain ⟨ie, pe, hdrawn⟩ := drawnFlags_eq s
    rw [hs, hdrawn]
    refine ⟨rfl, fun b h0 h5 => orFlags_other _ _ _ h0 h5, fun b hb => orFlags_sticky _ _ _ hb, fun hxm hud => ?_⟩
    rcases hf with rfl | rfl
    · exact absurd rfl hxm
    · exact absurd rfl (hud _)
  · rw [hs]
    exact ⟨rfl, fun _ _ _ => rfl, fun _ => id, fun _ _ => rfl⟩
  · rw [hs]
    exact ⟨rfl, fun _ _ _ => rfl, fun _ => id, fun _ _ => rfl⟩

end Sys2Proof.Machine
end

section
/-! Reset and INIT, the launch and its premises over a step, and the instruction that the host places (spec 70_reset R150, R151). -/

namespace Sys2Proof.Machine

/-! ## Reset and INIT (70_reset R150) -/

/-- Settles O50: the empty memory is canonical, and 0x1F80 has no bit from 16 upwards. -/
theorem stateInvariantHoldsAtReset : Obligations.StateInvariantHoldsAtReset := by
  constructor
  · rfl
  · decide

theorem readVec_reset (r : VReg) : readVec State.reset r = 0 := Vector.getElem_replicate r.isLt

theorem readMask_reset (r : KReg) : readMask State.reset r = 0 := Vector.getElem_replicate r.isLt

/-- RDX holds the processor signature; every other general register is 0. -/
theorem readGpr_reset {r : Gpr} (h : r ≠ 2) : readGpr State.reset r = 0 := by
  have hne : 2 ≠ r.val := fun h' => h (Fin.ext h'.symm)
  exact (Vector.getElem_set_ne (by decide) r.isLt hne).trans (Vector.getElem_replicate r.isLt)

/-- Settles O53: the register files entry by entry, and the other registers as the state after reset lists them. -/
theorem resetValues : Obligations.ResetValues :=
  ⟨readVec_reset, readMask_reset, fun _ => readGpr_reset, rfl, rfl, rfl, rfl, rfl, rfl, rfl, rfl, rfl, rfl, rfl⟩

/-- Settles O54: the two events put back the parts of the state that they keep. -/
theorem initKeepsVectorState : Obligations.InitKeepsVectorState :=
  fun _ => ⟨rfl, rfl, rfl, rfl, rfl, rfl, rfl⟩

/-! ## The launch (70_reset R151 a, b) -/

/-- Bit 18 is OR-ed into CR4. -/
theorem osxsave_launch (s : State) : osxsave (launch s) = true := by
  simp [osxsave, launch]

/-- XCR0[2:1] and XCR0[7:5] are OR-ed with ones. -/
theorem xcr0Enabled_launch (s : State) : xcr0Enabled (launch s) = true := by
  simp only [xcr0Enabled, launch, BitVec.extractLsb'_or, Bool.and_eq_true, beq_iff_eq]
  exact ⟨BitVec.or_allOnes, BitVec.or_allOnes⟩

/-- Bit 3 of CR0 is cleared. -/
theorem taskSwitched_launch (s : State) : taskSwitched (launch s) = false := by
  simp [taskSwitched, launch]

/-- Settles O52: the launch sets the mode and the enables, and leaves the CPUID flags as they are. -/
theorem launchEnablesEveryForm : Obligations.LaunchEnablesEveryForm := fun s hf hdq hvl _ =>
  ⟨rfl, osxsave_launch s, xcr0Enabled_launch s, taskSwitched_launch s, hf, hdq, fun _ => hvl⟩

/-! ## The launch premises over a step (70_reset R151, 10_state R29) -/

theorem launched_committed_iff (i : Instr) (s : State) (src : List Dword) : Launched (committed i s src) ↔ Launched s := Iff.rfl

theorem enabled_committed_iff (i : Instr) (s : State) (src : List Dword) (v : VLen) :
    Enabled v (committed i s src) ↔ Enabled v s := Iff.rfl

/-- Settles O51: what an instruction commits leaves the control registers, RFLAGS, CPL, the mode and the CPUID flags alone. -/
theorem everyStepKeepsTheLaunchPremises : Obligations.EveryStepKeepsTheLaunchPremises := by
  intro s t h
  obtain ⟨i, src, -, -, rfl⟩ := step_eq_next_committed h
  exact ⟨(launched_committed_iff i s src).2, fun v => (enabled_committed_iff i s src v).2⟩

/-! ## The instruction that the host places (70_reset R151 f, R156) -/

@[simp] theorem placeAtPc_mode (s : State) (bs : List Byte) : (placeAtPc s bs).mode = .long64 := rfl
@[simp] theorem placeAtPc_pc (s : State) (bs : List Byte) : (placeAtPc s bs).pc = s.pc := rfl
@[simp] theorem placeAtPc_mem (s : State) (bs : List Byte) : (placeAtPc s bs).mem = s.mem.writeBytes s.pc bs := rfl

/-- The placing drops every override for the fetch of the bytes that it stores. -/
theorem xlatLookup_placeAtPc (s : State) {bs : List Byte} {k : Nat} (hk : k < bs.length) :
    xlatLookup (placeAtPc s bs) .fetch (s.pc + BitVec.ofNat 64 k) = none := by
  have hplaced : s.pc + BitVec.ofNat 64 k ∈ byteAddrs s.pc bs.length := List.mem_map_of_mem (List.mem_range.2 hk)
  rw [xlatLookup, Option.map_eq_none_iff, List.find?_eq_none]
  rintro ⟨acc, a, r⟩ he hmatch
  simp only [Bool.and_eq_true, beq_iff_eq] at hmatch
  obtain ⟨rfl, rfl⟩ := hmatch
  have hkept := (List.mem_filter.1 he).2
  simp [show (launch s).pc = s.pc from rfl, hplaced] at hkept

/-- A placed byte at a canonical address is what a fetch there gives. -/
theorem readByte_placeAtPc (s : State) {bs : List Byte} {k : Nat} (hlen : bs.length ≤ 2 ^ 64) (hk : k < bs.length)
    (hcanon : isCanonical (s.pc + BitVec.ofNat 64 k) = true) :
    readByte (placeAtPc s bs) .fetch (s.pc + BitVec.ofNat 64 k) = .ok (bs.getD k 0) := by
  rw [readByte, xlatLookup_placeAtPc s hk]
  simp only [hcanon, if_true]
  rw [physByte_eq_ok_iff, placeAtPc_mem]
  exact Memory.read_writeBytes s.mem s.pc bs hlen k hk

@[simp] theorem wordBytes_length (nbits w : Nat) : (wordBytes nbits w).length = windowBytes := by simp [wordBytes]

/-- Settles O46: the bytes of the instruction's word are its encoding, so the step fetches what was placed. -/
theorem placedInstructionIsRun : Obligations.PlacedInstructionIsRun := by
  intro s i hwf hlt hcanon
  have hlen : (encode i).length = instrLength i := Laws.Length.all i
  have hle : instrLength i ≤ 13 := (instrLength_bounds i).2
  rw [State.withFetchWord, ← hlen]
  refine stepRunsTheBytesInMemory _ i (placeAtPc_mode ..) hwf (by rw [placeAtPc_pc]; omega) fun k hk => ?_
  have hk15 : k < 15 := by omega
  rw [placeAtPc_pc, readByte_placeAtPc s (by simp [windowBytes]) (by simpa [windowBytes] using hk15) (hcanon k hk15),
    wordBytes_getD _ _ hk15]

end Sys2Proof.Machine
end
